-- ==== Sys2Proof/Word.lean ====
section
/-! DEFINITION. The word types of the block: bytes, and the 3-bit hardware address (R11, R12, R17, R24). -/

namespace Sys2Proof

/-- A cache entry, a transferred byte, a register address on the bus, a command word: 8 bits (R17, R38, R57). -/
abbrev Byte := BitVec 8

/-- The hardware address `HW`, 0 to 7 (R5, R24). -/
abbrev HwAddr := BitVec 3

end Sys2Proof
end

