-- ==== Sys2Proof/Config.lean ====
section
/-! DEFINITION. What is fixed for one instance (R10), the closed enumeration of control registers (R16, R71),
and the free values: the strapped hardware address and the transport's answers (R5, R9, R32, R45). -/

namespace Sys2Proof

/-- The 22 control registers of the device, in the order of R16 (R71: a closed enumeration).
The names of entries 2 to 19 are the spec's, from general knowledge (log entry 9, PRESUMED). -/
inductive ControlRegister where
  | iodira | iodirb
  | ipola | ipolb
  | gpintena | gpintenb
  | defvala | defvalb
  | intcona | intconb
  | iocona | ioconb
  | gppua | gppub
  | intfa | intfb
  | intcapa | intcapb
  | gpioa | gpiob
  | olata | olatb
deriving DecidableEq, Repr

/-- `NUM_REGS`, the number of cache entries (R10). -/
abbrev Config.numRegs : Nat := 22

/-- `NUM_PINS`: pins are 0 to 15 (R10). -/
abbrev Config.numPins : Nat := 16

/-- `OPCODE_BASE` (R10). -/
abbrev Config.opcodeBase : Byte := 0x40#8

/-- The value on the input `HWADDR[2:0]` when the instance is constructed: any of the eight (R5, R24, R119).
A free value: nothing in Lean constrains it (log entry 5). -/
opaque Config.hwAddr : HwAddr

/-- The transport-and-device oracle (R9, R45): the byte the transport returns for the n-th transfer of a run
whose answer is not scripted. A free value: any byte (log entry 3; U4, U5). -/
opaque Config.oracle : Nat → Byte

end Sys2Proof
end

