-- ==== Sys2Proof/Syntax.lean ====
section
/-! DEFINITION. The instructions: the seven rows of spec/opcode_table.json, five host commands (format CMD8) and the
two register transactions the block emits (format SPI24) (R51, and section 3 of spec/30_encoding.md). -/

namespace Sys2Proof

/-- PinLatchValue (R60). -/
inductive PinLatchValue where
  | low
  | high
deriving DecidableEq, Repr

/-- PinMode, a closed set (R59). -/
inductive PinMode where
  | input
  | output
  | inputPullup
deriving DecidableEq, Repr

/-- RegisterTransaction (R72). -/
inductive Transaction where
  | write
  | read
deriving DecidableEq, Repr

/-- The two encodings (R51): a command word of 8 bits, a frame of exactly three bytes. -/
inductive Format where
  | cmd8
  | spi24
deriving DecidableEq, Repr

/-- One constructor per row of spec/opcode_table.json. A pin operand `p` is the source's integer, meaningful from
0 to 15 (R87, log entry 22); the operands of a frame are its fields (R53, R54). -/
inductive Instr where
  /-- `PINMODE.INPUT p` (R90). -/
  | pinmodeInput (p : Nat)
  /-- `PINMODE.OUTPUT p` (R89). -/
  | pinmodeOutput (p : Nat)
  /-- `PINMODE.INPUT_PULLUP p` (R91). -/
  | pinmodeInputPullup (p : Nat)
  /-- `DWRITE p, v` (R93). -/
  | dwrite (p : Nat) (v : PinLatchValue)
  /-- `DREAD p` (R94). -/
  | dread (p : Nat)
  /-- `SPI.WRITE`: hardware address `a`, register address `r`, data `d` (R53, R76). -/
  | spiWrite (a : HwAddr) (r d : Byte)
  /-- `SPI.READ`: hardware address `a`, register address `r`, flush byte `f` (R54, R77). -/
  | spiRead (a : HwAddr) (r f : Byte)
deriving DecidableEq, Repr

/-- The format an instruction is encoded in (R51). -/
def Instr.format : Instr → Format
  | .pinmodeInput _ => .cmd8
  | .pinmodeOutput _ => .cmd8
  | .pinmodeInputPullup _ => .cmd8
  | .dwrite _ _ => .cmd8
  | .dread _ => .cmd8
  | .spiWrite _ _ _ => .spi24
  | .spiRead _ _ _ => .spi24

end Sys2Proof
end

