-- ==== Sys2Proof/Machine/State.lean ====
section
/-! DEFINITION. The state of one engine instance (R15, R30) with the model's own record of its interfaces (R9, R32,
R83), the reasons a step can stop, and reset (R119 to R123). -/

namespace Sys2Proof.Machine

/-- The block raises no fault: "it has no cause codes", and every admitted command ends in a completed state
(R104, R106). So this closed type has no constructor, and no step answers a fault. -/
inductive Fault
deriving DecidableEq, Repr

/-- Why a meaning gives no next state. -/
inductive Refusal where
  /-- An instruction without a meaning yet, by its mnemonic; raised only by an arm of `exec`. Safe. No arm raises it. -/
  | notModelled (mnemonic : String)
  /-- A host command while another is in progress: "A host that overlaps two commands on one instance gets no defined
  behaviour. A model gives that host no move" (R130, R132). Raised by the five commands. Safe (log entry 7). -/
  | commandInProgress
  /-- A frame inside another frame's open chip-select bracket, which R131 forbids. Raised by the two frames. Safe
  (log entry 7). -/
  | frameInProgress
deriving DecidableEq, Repr

/-- The reason of `refuse(reason)` (R109): what the sticky refusal mark records. -/
inductive RefuseReason where
  | reservedCommandWord
  | pinOutOfRange
  | registerOutOfRange
deriving DecidableEq, Repr

/-- A register transaction still to be sent: the fields of R53 and R54. `data` is the data byte of a write and the
flush byte of a read. -/
structure Frame where
  hw : HwAddr
  dir : Transaction
  addr : Byte
  data : Byte
deriving DecidableEq, Repr

/-- What the command in progress returns when its last frame is released (R8, R25, log entry 17):
nothing, a level already decided by a guard, or the masked bit of the third received byte (R94). -/
inductive Return where
  | void
  | level (v : PinLatchValue)
  | sampled (mask : Byte)
deriving DecidableEq, Repr

/-- The response output of a completed command (R8): completion alone, or a PinLatchValue. -/
inductive Response where
  | done
  | value (v : PinLatchValue)
deriving DecidableEq, Repr

/-- `SEQ` (R25): idle, or a command in progress with the frames it still has to emit, the index of the next byte
transfer of the current one, and what it will return. -/
inductive Seq where
  | idle
  | busy (frames : List Frame) (k : Fin 3) (ret : Return)
deriving DecidableEq, Repr

/-- A bus event (R83). A transfer carries the byte sent and the byte the transport returned. -/
inductive Event where
  | assert
  | xfer (tx rx : Byte)
  | release
deriving DecidableEq, Repr

/-- The shadow register cache: 22 bytes indexed by register address (R16, R17, R71). -/
abbrev Cache := Vector Byte Config.numRegs

structure State where
  /-- `HW` (R24). -/
  hw : HwAddr
  /-- `C[0..21]` (R16). -/
  cache : Cache
  /-- `SEQ` (R25). -/
  seq : Seq
  /-- The response output: what the last completed command returned, none pending after reset (R8, R30, log entry 8). -/
  response : Option Response
  /-- The sticky refusal mark (R109, log entry 6). -/
  refusal : Option RefuseReason
  /-- The host's command stream: the command words it will issue, in order (R6, R32, log entry 2). Not the block's. -/
  cmds : List Byte
  /-- The answers of the transport that are given in advance, in order (R32, log entry 3). Not the block's. -/
  rx : List Byte
  /-- How many transfers the transport has answered: the index of the next free answer (log entry 3). Not the block's. -/
  xfers : Nat
  /-- The bus events emitted so far, oldest first (R83, log entry 19). Nothing reads it. -/
  bus : List Event
deriving DecidableEq, Repr

/-- The power-on cache seeds (R30, R120): IODIRA and IODIRB 0xFF, the other 20 entries 0x00. -/
def resetCache : Cache :=
  #v[0xFF#8, 0xFF#8, 0x00#8, 0x00#8, 0x00#8, 0x00#8, 0x00#8, 0x00#8, 0x00#8, 0x00#8, 0x00#8,
     0x00#8, 0x00#8, 0x00#8, 0x00#8, 0x00#8, 0x00#8, 0x00#8, 0x00#8, 0x00#8, 0x00#8, 0x00#8]

/-- Construction with `hwaddr` on the input `HWADDR[2:0]` (R119 to R122): it emits no bus event, and no command has
been issued, no answer scripted and no transfer made. -/
def State.resetWith (hwaddr : HwAddr) : State where
  hw := hwaddr
  cache := resetCache
  seq := .idle
  response := none
  refusal := none
  cmds := []
  rx := []
  xfers := 0
  bus := []

/-- The machine right after reset, whatever the strapped address is (R24, log entry 5). -/
def State.reset : State := State.resetWith Config.hwAddr

end Sys2Proof.Machine
end

