-- ==== Sys2Proof/Machine/Operands.lean ====
section
/-! DEFINITION. Operand routing: a pin to its port, bit and mask (R84, R85), a port to its registers (R86), a register to
its address (R69, the table of R16), and the opcode byte (R72, R74). -/

namespace Sys2Proof.Machine

/-- A port of eight pins (R10, R84). -/
inductive Port where
  | A
  | B
deriving DecidableEq, Repr

/-- `port(p) = p / 8`: 0 is port A, 1 is port B (R84). -/
def port (p : Nat) : Port := if p / 8 = 0 then .A else .B

/-- `bit(p) = p % 8` (R84). -/
def bit (p : Nat) : Nat := p % 8

/-- `bitMask(p) = 1 << bit(p)` (R85). -/
def bitMask (p : Nat) : Byte := 1#8 <<< bit p

/-- The direction register of a port (R86). -/
def iodir : Port → ControlRegister
  | .A => .iodira
  | .B => .iodirb

/-- The pull-up register of a port (R86). -/
def gppu : Port → ControlRegister
  | .A => .gppua
  | .B => .gppub

/-- The latch register of a port (R86). -/
def gpio : Port → ControlRegister
  | .A => .gpioa
  | .B => .gpiob

/-- The port a register belongs to, the letter its name in R16 ends in. -/
def portOf : ControlRegister → Port
  | .iodira | .ipola | .gpintena | .defvala | .intcona | .iocona | .gppua | .intfa | .intcapa | .gpioa | .olata => .A
  | .iodirb | .ipolb | .gpintenb | .defvalb | .intconb | .ioconb | .gppub | .intfb | .intcapb | .gpiob | .olatb => .B

/-- `REG_ADDR`, the configuration table of R16 (R10). Entries 0, 1, 20 and 21 are the source's; entries 2 to 19 are
general knowledge (D7, log entry 9, PRESUMED). -/
def regAddr : ControlRegister → Fin Config.numRegs
  | .iodira => 0x00
  | .iodirb => 0x01
  | .ipola => 0x02
  | .ipolb => 0x03
  | .gpintena => 0x04
  | .gpintenb => 0x05
  | .defvala => 0x06
  | .defvalb => 0x07
  | .intcona => 0x08
  | .intconb => 0x09
  | .iocona => 0x0A
  | .ioconb => 0x0B
  | .gppua => 0x0C
  | .gppub => 0x0D
  | .intfa => 0x0E
  | .intfb => 0x0F
  | .intcapa => 0x10
  | .intcapb => 0x11
  | .gpioa => 0x12
  | .gpiob => 0x13
  | .olata => 0x14
  | .olatb => 0x15

/-- `addressOf(r)`, the cache index zero-extended to the address byte on the bus (R69). -/
def addressOf (r : ControlRegister) : Byte := BitVec.ofNat 8 (regAddr r).val

/-- `tbit`, the direction bit (R72). -/
def tbit : Transaction → Byte
  | .write => 0#8
  | .read => 1#8

/-- `OPCODE(HW, t) = 0x40 | (zext_8(HW) << 1) | tbit(t)` (R74). -/
def opcode (hw : HwAddr) (t : Transaction) : Byte :=
  Config.opcodeBase ||| (hw.setWidth 8 <<< 1) ||| tbit t

/-- `FLUSH(a) = a`, the third byte a read sends (R79, D8). -/
def flush (a : Byte) : Byte := a

/-- The level of the masked bit of a byte (R94): HIGH when it is set. -/
def levelOf (b mask : Byte) : PinLatchValue := if b &&& mask ≠ 0#8 then .high else .low

end Sys2Proof.Machine
end

