-- ==== Sys2Proof/Machine/Ops.lean ====
section
/-! DEFINITION. The shared operations: the cache accessors (R67, R68), the transport primitives and the register
transaction (R13, R73 to R80), the sequencer's bookkeeping (R25) and the refusal (R109). The block has no exceptions, so
there is no exception entry and no return from one (R104, R112, R113); the refusal is the one shared outcome beside
completion. -/

namespace Sys2Proof.Machine

/-! ### RegisterCache -/

/-- `get(r)` on a cache (R67). -/
def cacheGet (c : Cache) (r : ControlRegister) : Byte := c.get (regAddr r)

/-- `set(r, v)` on a cache: all 8 bits of one entry (R68). -/
def cacheSet (c : Cache) (r : ControlRegister) (v : Byte) : Cache := c.set (regAddr r).val v (regAddr r).isLt

/-- `get(r)`, the entry of the instance's cache (R67). -/
def State.get (s : State) (r : ControlRegister) : Byte := cacheGet s.cache r

/-! ### The transport (R7, R9, R13) -/

/-- The byte the transport returns for the k-th transfer from now: the scripted one, else a free value (R45, log
entry 3). -/
def State.answer (s : State) (k : Nat) : Byte := (s.rx[k]?).getD (Config.oracle (s.xfers + k))

/-- Append one bus event (R83). -/
def State.record (e : Event) (s : State) : State := { s with bus := s.bus ++ [e] }

/-- `CsAssert()` (R13). -/
def State.csAssert (s : State) : State := s.record .assert

/-- `CsRelease()` (R13). -/
def State.csRelease (s : State) : State := s.record .release

/-- `Xfer(tx) -> rx`, one full-duplex byte exchange: the state after it. The byte received is `s.answer 0`. -/
def State.xfer (tx : Byte) (s : State) : State :=
  { s with rx := s.rx.tail, xfers := s.xfers + 1, bus := s.bus ++ [.xfer tx (s.answer 0)] }

/-! ### ProtocolEncoder -/

/-- The three bytes a frame sends, in transfer order (R34, R53, R54). -/
def Frame.byte (f : Frame) : Fin 3 → Byte
  | 0 => opcode f.hw f.dir
  | 1 => f.addr
  | 2 => f.data

/-- The frame of `SpiWriteReg(a, v)` (R76). -/
def writeFrame (hw : HwAddr) (a v : Byte) : Frame := ⟨hw, .write, a, v⟩

/-- The frame of `SpiReadReg(a)` (R77). -/
def readFrame (hw : HwAddr) (a : Byte) : Frame := ⟨hw, .read, a, flush a⟩

/-- One register transaction: the bus bracket with its three transfers (R73, R75). The state after it. -/
def State.sendFrame (f : Frame) (s : State) : State :=
  s.csAssert |>.xfer (f.byte 0) |>.xfer (f.byte 1) |>.xfer (f.byte 2) |>.csRelease

/-- `rx2`, the byte received in the third transfer of the frame sent next (R56, R78). -/
def State.rx2 (s : State) : Byte := s.answer 2

/-! ### The sequencer (R25) -/

/-- What the command returns, given the third byte its last frame received (R8, R94). -/
def Return.respond (rx2 : Byte) : Return → Response
  | .void => .done
  | .level v => .value v
  | .sampled mask => .value (levelOf rx2 mask)

/-- Return the response and go back to `IDLE` (R25). -/
def State.complete (ret : Return) (rx2 : Byte) (s : State) : State :=
  { s with seq := .idle, response := some (ret.respond rx2) }

/-- After a frame's release: drop it; when no frame is left, complete (R25). Outside a command there is nothing to do. -/
def State.dropFrame (rx2 : Byte) (s : State) : State :=
  match s.seq with
  | .idle => s
  | .busy (_ :: f :: fs) _ ret => { s with seq := .busy (f :: fs) 0 ret }
  | .busy _ _ ret => s.complete ret rx2

/-- Send a frame and drop it from the sequencer (R25, R73). -/
def State.runFrame (f : Frame) (s : State) : State := (s.sendFrame f).dropFrame s.rx2

/-- Send frames one after another, each in its own bracket (R44, R73). -/
def State.runFrames : List Frame → State → State
  | [], s => s
  | f :: fs, s => (s.runFrame f).runFrames fs

/-- A command as the pin controller decides it: the cache it leaves, the frames it emits in order, and what it
returns. -/
structure Job where
  cache : Cache
  frames : List Frame
  ret : Return
deriving DecidableEq, Repr

/-- A command that has done nothing yet and returns nothing. -/
def State.newJob (s : State) : Job := ⟨s.cache, [], .void⟩

/-- `set(r, v)` without a frame. -/
def Job.set (r : ControlRegister) (v : Byte) (j : Job) : Job := { j with cache := cacheSet j.cache r v }

/-- `SpiWriteReg(addressOf(r), v)`. -/
def Job.sendWrite (hw : HwAddr) (r : ControlRegister) (v : Byte) (j : Job) : Job :=
  { j with frames := j.frames ++ [writeFrame hw (addressOf r) v] }

/-- `set(r, v); SpiWriteReg(addressOf(r), v)`: the cache update and its frame, one unit (R39, R76). -/
def Job.write (hw : HwAddr) (r : ControlRegister) (v : Byte) (j : Job) : Job := (j.set r v).sendWrite hw r v

/-- `SpiReadReg(addressOf(r))`, the command returning the masked bit of what it reads (R77, R94). -/
def Job.read (hw : HwAddr) (r : ControlRegister) (mask : Byte) (j : Job) : Job :=
  { j with frames := j.frames ++ [readFrame hw (addressOf r)], ret := .sampled mask }

/-- Accept a command: from `IDLE` to `BUSY` with its frames, its cache updates done (D11, log entry 13); with no frame
to emit it completes at once (R25). -/
def State.start (j : Job) (s : State) : State :=
  match j.frames with
  | [] => { s with cache := j.cache, seq := .idle, response := some (j.ret.respond 0#8) }
  | f :: fs => { s with cache := j.cache, seq := .busy (f :: fs) 0 j.ret, response := none }

/-- A command as one step: accept it and emit all its frames (R14, R25, D1). -/
def State.perform (j : Job) (s : State) : State := (s.start j).runFrames j.frames

/-! ### Refusal -/

/-- `refuse(reason)` (R109): no cache entry, `HW` or `SEQ` changes, no bus event, no response; the mark stays, at the
first reason of the run (log entry 6). -/
def State.refuse (why : RefuseReason) (s : State) : State :=
  { s with response := none, refusal := some (s.refusal.getD why) }

/-- A host command on pin `p`. The host has no move while a command is in progress (R130, R132); a pin outside 0 to 15 is
refused before any guard (R87, R111). -/
def command (p : Nat) (j : Job) (s : State) : Host.Outcome State Fault Refusal :=
  match s.seq with
  | .busy _ _ _ => .refused .commandInProgress
  | .idle => .next (if p < Config.numPins then s.perform j else s.refuse .pinOutOfRange)

/-- A frame as the sequencer's current one. It needs the chip-select released (R131); a register address that is none of
the 22 is refused (R70, R108). -/
def frame (f : Frame) (s : State) : Host.Outcome State Fault Refusal :=
  match s.seq with
  | .busy _ 1 _ => .refused .frameInProgress
  | .busy _ 2 _ => .refused .frameInProgress
  | _ => .next (if f.addr.toNat < Config.numRegs then s.runFrame f else s.refuse .registerOutOfRange)

/-- Take the next word off the host's command stream (R6). -/
def State.takeCommand (s : State) : State := { s with cmds := s.cmds.tail }

end Sys2Proof.Machine
end

