-- ==== Sys2Proof/Machine/Flags.lean ====
section
/-! DEFINITION. The block has no status flags (R26). These are the predicates its rules test, derived from the cache and
recorded nowhere. -/

namespace Sys2Proof.Machine

/-- `isInput(p)`: the cached direction bit of the pin is 1 (R26, R95). -/
def State.isInput (s : State) (p : Nat) : Bool := s.get (iodir (port p)) &&& bitMask p ≠ 0#8

/-- `isOutput(p)` (R26). -/
def State.isOutput (s : State) (p : Nat) : Bool := !s.isInput p

/-- The dirty-check: does the candidate byte differ, in any bit, from the cached byte (R26, R96)? -/
def State.dirty (s : State) (r : ControlRegister) (candidate : Byte) : Bool := candidate ≠ s.get r

/-- The pin's mode as the cache shows it (R23). -/
def State.modeOf (s : State) (p : Nat) : PinMode :=
  if s.isOutput p then .output
  else if s.get (gppu (port p)) &&& bitMask p ≠ 0#8 then .inputPullup
  else .input

end Sys2Proof.Machine
end

