-- ==== Sys2Proof/Machine/PinController.lean ====
section
/-! DEFINITION. The five host commands (R88 to R96): what each decides (its job) and its meaning. -/

namespace Sys2Proof.Machine

/-! ### pinMode -/

/-- The candidate direction byte (R88). -/
def dirCandidate (mode : PinMode) (m dir : Byte) : Byte :=
  match mode with
  | .output => dir &&& ~~~m
  | .input => dir ||| m
  | .inputPullup => dir ||| m

/-- The candidate pull-up byte (R88). -/
def pullCandidate (mode : PinMode) (m pu : Byte) : Byte :=
  match mode with
  | .output => pu
  | .input => pu &&& ~~~m
  | .inputPullup => pu ||| m

/-- The common algorithm of pinMode (R88). The three commands below are written from their own rules; that they agree with
it is an obligation. -/
def pinModeJob (p : Nat) (mode : PinMode) (s : State) : Job :=
  let m := bitMask p
  let dr := iodir (port p)
  let pr := gppu (port p)
  let dir' := dirCandidate mode m (s.get dr)
  let pu' := pullCandidate mode m (s.get pr)
  let j := if s.dirty dr dir' then s.newJob.write s.hw dr dir' else s.newJob
  let j := j.set pr pu'
  if mode ≠ .output then j.sendWrite s.hw pr pu' else j

/-- What `pinMode(p, OUTPUT)` decides (R89). -/
def pinmodeOutputJob (p : Nat) (s : State) : Job :=
  let dr := iodir (port p)
  let dir' := s.get dr &&& ~~~bitMask p
  if s.dirty dr dir' then s.newJob.write s.hw dr dir' else s.newJob

/-- What `pinMode(p, INPUT)` decides (R90): direction frame first, pull-up frame second (R92). -/
def pinmodeInputJob (p : Nat) (s : State) : Job :=
  let m := bitMask p
  let dr := iodir (port p)
  let pr := gppu (port p)
  let dir' := s.get dr ||| m
  let pu' := s.get pr &&& ~~~m
  let j := if s.dirty dr dir' then s.newJob.write s.hw dr dir' else s.newJob
  j.write s.hw pr pu'

/-- What `pinMode(p, INPUT_PULLUP)` decides (R91): direction frame first, pull-up frame second (R92). -/
def pinmodeInputPullupJob (p : Nat) (s : State) : Job :=
  let m := bitMask p
  let dr := iodir (port p)
  let pr := gppu (port p)
  let dir' := s.get dr ||| m
  let pu' := s.get pr ||| m
  let j := if s.dirty dr dir' then s.newJob.write s.hw dr dir' else s.newJob
  j.write s.hw pr pu'

/-! ### digitalWrite and digitalRead -/

/-- The candidate latch byte (R93). -/
def latchCandidate (v : PinLatchValue) (m lat : Byte) : Byte :=
  match v with
  | .high => lat ||| m
  | .low => lat &&& ~~~m

/-- What `digitalWrite(p, v)` decides (R93): the guard, then the dirty-check. -/
def dwriteJob (p : Nat) (v : PinLatchValue) (s : State) : Job :=
  let lr := gpio (port p)
  if s.isInput p then s.newJob
  else
    let lat' := latchCandidate v (bitMask p) (s.get lr)
    if s.dirty lr lat' then s.newJob.write s.hw lr lat' else s.newJob

/-- What `digitalRead(p)` decides (R94): LOW for an output pin, else the pin's bit of the latch register read from the
device. The cache is not updated. -/
def dreadJob (p : Nat) (s : State) : Job :=
  if s.isOutput p then { s.newJob with ret := .level .low }
  else s.newJob.read s.hw (gpio (port p)) (bitMask p)

/-! ### The meanings -/

/-- `PINMODE.INPUT p` (R90). -/
def execPinmodeInput (p : Nat) (s : State) : Host.Outcome State Fault Refusal :=
  command p (pinmodeInputJob p s) s

/-- `PINMODE.OUTPUT p` (R89). -/
def execPinmodeOutput (p : Nat) (s : State) : Host.Outcome State Fault Refusal :=
  command p (pinmodeOutputJob p s) s

/-- `PINMODE.INPUT_PULLUP p` (R91). -/
def execPinmodeInputPullup (p : Nat) (s : State) : Host.Outcome State Fault Refusal :=
  command p (pinmodeInputPullupJob p s) s

/-- `DWRITE p, v` (R93). -/
def execDwrite (p : Nat) (v : PinLatchValue) (s : State) : Host.Outcome State Fault Refusal :=
  command p (dwriteJob p v s) s

/-- `DREAD p` (R94). -/
def execDread (p : Nat) (s : State) : Host.Outcome State Fault Refusal :=
  command p (dreadJob p s) s

end Sys2Proof.Machine
end

