-- ==== Sys2Proof/Machine/ProtocolEncoder.lean ====
section
/-! DEFINITION. The two register transactions as instructions (R76, R77): the frame is sent and the sequencer moves past it
(R25, log entry 16). -/

namespace Sys2Proof.Machine

/-- `SPI.WRITE`: all three received bytes are discarded (R76, R80). The cache is the caller's to update (R76). -/
def execSpiWrite (a : HwAddr) (r d : Byte) (s : State) : Host.Outcome State Fault Refusal :=
  frame ⟨a, .write, r, d⟩ s

/-- `SPI.READ`: the third received byte is the result, which the command in progress returns a bit of (R77, R78, R94). -/
def execSpiRead (a : HwAddr) (r f : Byte) (s : State) : Host.Outcome State Fault Refusal :=
  frame ⟨a, .read, r, f⟩ s

/-- The instruction a frame is (R53, R54). -/
def Frame.instr (f : Frame) : Instr :=
  match f.dir with
  | .write => .spiWrite f.hw f.addr f.data
  | .read => .spiRead f.hw f.addr f.data

/-- The frame of an instruction of format SPI24; a command is none. -/
def frameOf : Instr → Option Frame
  | .spiWrite a r d => some ⟨a, .write, r, d⟩
  | .spiRead a r f => some ⟨a, .read, r, f⟩
  | .pinmodeInput _ => none
  | .pinmodeOutput _ => none
  | .pinmodeInputPullup _ => none
  | .dwrite _ _ => none
  | .dread _ => none

end Sys2Proof.Machine
end

