-- ==== Sys2Proof/Machine/Dispatch.lean ====
section
/-! DEFINITION. One arm per constructor of Instr. -/

namespace Sys2Proof.Machine

def exec (i : Instr) (s : State) : Host.Outcome State Fault Refusal :=
  match i with
  | .pinmodeInput p => Sys2Proof.Machine.execPinmodeInput p s
  | .pinmodeOutput p => Sys2Proof.Machine.execPinmodeOutput p s
  | .pinmodeInputPullup p => Sys2Proof.Machine.execPinmodeInputPullup p s
  | .dwrite p v => Sys2Proof.Machine.execDwrite p v s
  | .dread p => Sys2Proof.Machine.execDread p s
  | .spiWrite a r d => Sys2Proof.Machine.execSpiWrite a r d s
  | .spiRead a r f => Sys2Proof.Machine.execSpiRead a r f s

end Sys2Proof.Machine
end

