-- ==== Sys2Proof/WellFormed.lean ====
section
/-! DEFINITION. Which instructions are well formed: a pin operand is one of the 16 pins (R87), the register address of
a frame is one of the 22 (R53, R69, R70). -/

namespace Sys2Proof

/-- The check, as a Bool: the pin is 0 to 15, the register address is below 22. -/
def Instr.wellFormed : Instr → Bool
  | .pinmodeInput p => p < Config.numPins
  | .pinmodeOutput p => p < Config.numPins
  | .pinmodeInputPullup p => p < Config.numPins
  | .dwrite p _ => p < Config.numPins
  | .dread p => p < Config.numPins
  | .spiWrite _ r _ => r.toNat < Config.numRegs
  | .spiRead _ r _ => r.toNat < Config.numRegs

/-- An instruction the spec gives a meaning to. -/
abbrev WellFormed (i : Instr) : Prop := i.wellFormed = true

end Sys2Proof
end

