-- ==== Sys2Proof/Decode.lean ====
section
/-! DEFINITION. Decoding, total on any bytes: the command word CMD8 (R57 to R61, R63) and the frame SPI24 (R52 to R55);
then the encoder, written from the same tables. -/

namespace Sys2Proof

/-- Why bytes spell no instruction. -/
inductive DecodeError where
  /-- A command word of a reserved range (R63). -/
  | reservedCommandWord
  /-- Three bytes whose first is no opcode byte: bits [7:4] are not `0100` (R52). -/
  | notAFrame
  /-- Not one byte for CMD8, not three for SPI24 (R51). -/
  | wrongLength
deriving DecidableEq, Repr

/-- What a decoder answers: the instruction, or the reason there is none. -/
inductive Decoded where
  | ok (i : Instr)
  | rejected (why : DecodeError)
deriving DecidableEq, Repr

/-! ### The fields of a command word (R57) -/

/-- `OP`, bits [7:6]. -/
def opField (w : Byte) : BitVec 2 := w.extractLsb' 6 2

/-- `ARG`, bits [5:4]. -/
def argField (w : Byte) : BitVec 2 := w.extractLsb' 4 2

/-- `PIN`, bits [3:0], an unsigned pin index (R61). -/
def pinField (w : Byte) : Nat := (w.extractLsb' 0 4).toNat

/-- Decode a command word (R58, R59, R60, R63). -/
def decodeCommand (w : Byte) : Decoded :=
  match opField w, argField w with
  | 0b00#2, 0b00#2 => .ok (.pinmodeInput (pinField w))
  | 0b00#2, 0b01#2 => .ok (.pinmodeOutput (pinField w))
  | 0b00#2, 0b10#2 => .ok (.pinmodeInputPullup (pinField w))
  | 0b01#2, 0b00#2 => .ok (.dwrite (pinField w) .low)
  | 0b01#2, 0b01#2 => .ok (.dwrite (pinField w) .high)
  | 0b10#2, 0b00#2 => .ok (.dread (pinField w))
  | _, _ => .rejected .reservedCommandWord

/-! ### The fields of an opcode byte (R52) -/

/-- Bits [7:4], fixed at `0100`. -/
def fixedField (b : Byte) : BitVec 4 := b.extractLsb' 4 4

/-- `A`, bits [3:1], the hardware address. -/
def hwField (b : Byte) : HwAddr := b.extractLsb' 1 3

/-- `RW`, bit [0], the transaction direction: 0 write, 1 read. -/
def dirField (b : Byte) : Transaction := if b.getLsbD 0 then .read else .write

/-- Decode the three bytes of a frame, in transfer order (R53, R54). -/
def decodeFrame (b0 b1 b2 : Byte) : Decoded :=
  if fixedField b0 = 0b0100#4 then
    match dirField b0 with
    | .write => .ok (.spiWrite (hwField b0) b1 b2)
    | .read => .ok (.spiRead (hwField b0) b1 b2)
  else .rejected .notAFrame

/-- The decoder: the bytes of one instruction of a format, in the order they are handed over (R51). -/
def decode (fmt : Format) (bytes : List Byte) : Decoded :=
  match fmt, bytes with
  | .cmd8, [w] => decodeCommand w
  | .spi24, [b0, b1, b2] => decodeFrame b0 b1 b2
  | .cmd8, _ => .rejected .wrongLength
  | .spi24, _ => .rejected .wrongLength

/-- The decoded instruction, if there is one. -/
def Decoded.instr? : Decoded → Option Instr
  | .ok i => some i
  | .rejected _ => none

/-- The bytes of a word numbered as spec/opcode_table.json numbers it. An SPI24 row is one 24-bit number whose bits
[23:16] are the byte transferred first (R55, log entry 15). -/
def tableBytes (nbits w : Nat) : Option (Format × List Byte) :=
  match nbits with
  | 8 => some (.cmd8, [BitVec.ofNat 8 w])
  | 24 => some (.spi24, [BitVec.ofNat 8 (w / 65536), BitVec.ofNat 8 (w / 256), BitVec.ofNat 8 w])
  | _ => none

/-- The instruction the decoder reads from the word `w` of `nbits` bits of the opcode table. -/
def decodeTableWord (nbits w : Nat) : Option Instr :=
  match tableBytes nbits w with
  | some (fmt, bytes) => (decode fmt bytes).instr?
  | none => none

/-! ### The encoder -/

/-- A command word from its fields (R57). DESIGN CHOICE (log entry 29): a pin of 16 or more has no encoding (R61, R87), and
here only its four low bits are kept. The encoder is meant for well-formed instructions. -/
def commandWord (op arg : BitVec 2) (p : Nat) : Byte := op ++ arg ++ BitVec.ofNat 4 p

/-- `VALUE`, bit 4 of a DWRITE word under a bit 5 of 0 (R60). -/
def valueArg : PinLatchValue → BitVec 2
  | .low => 0b00#2
  | .high => 0b01#2

/-- The opcode byte from its fields (R52). -/
def opcodeWord (a : HwAddr) (t : Transaction) : Byte :=
  match t with
  | .write => 0b0100#4 ++ a ++ 0b0#1
  | .read => 0b0100#4 ++ a ++ 0b1#1

/-- The bytes of a well-formed instruction (R53, R54, R58 to R60). What it gives for a pin of 16 or more, which no word can
hold, is the model's choice (log entry 29). -/
def encode : Instr → List Byte
  | .pinmodeInput p => [commandWord 0b00#2 0b00#2 p]
  | .pinmodeOutput p => [commandWord 0b00#2 0b01#2 p]
  | .pinmodeInputPullup p => [commandWord 0b00#2 0b10#2 p]
  | .dwrite p v => [commandWord 0b01#2 (valueArg v) p]
  | .dread p => [commandWord 0b10#2 0b00#2 p]
  | .spiWrite a r d => [opcodeWord a .write, r, d]
  | .spiRead a r f => [opcodeWord a .read, r, f]

end Sys2Proof
end

