-- ==== Sys2Proof/Machine/Sequencer.lean ====
section
/-! DEFINITION. The sequencer one byte transfer at a time (R25): the second description of the machine that R25 allows
beside the atomic command. That both agree is an obligation. -/

namespace Sys2Proof.Machine

/-- One byte transfer of the command in progress (R25). The first transfer of a frame follows `CsAssert`; the third is
followed by `CsRelease`, and the frame is dropped (R73, log entry 24). -/
def State.transfer (s : State) : State :=
  match s.seq with
  | .idle => s
  | .busy [] _ ret => s.complete ret 0#8
  | .busy (f :: fs) 0 ret => { s.csAssert.xfer (f.byte 0) with seq := .busy (f :: fs) 1 ret }
  | .busy (f :: fs) 1 ret => { s.xfer (f.byte 1) with seq := .busy (f :: fs) 2 ret }
  | .busy (f :: _) 2 _ => (s.xfer (f.byte 2)).csRelease.dropFrame (s.answer 0)

/-- `n` transfers. -/
def State.transfers : Nat → State → State
  | 0, s => s
  | n + 1, s => s.transfer.transfers n

/-- Accept a command without sending its frames yet: the refusal of a pin outside 0 to 15 first (R111). -/
def State.acceptCommand (p : Nat) (j : Job) (s : State) : State :=
  if p < Config.numPins then s.start j else s.refuse .pinOutOfRange

/-- Accept an instruction on the command interface; a frame is none of the three operations the host may issue (R6). -/
def issue (i : Instr) (s : State) : State :=
  match i with
  | .pinmodeInput p => s.acceptCommand p (pinmodeInputJob p s)
  | .pinmodeOutput p => s.acceptCommand p (pinmodeOutputJob p s)
  | .pinmodeInputPullup p => s.acceptCommand p (pinmodeInputPullupJob p s)
  | .dwrite p v => s.acceptCommand p (dwriteJob p v s)
  | .dread p => s.acceptCommand p (dreadJob p s)
  | .spiWrite _ _ _ => s
  | .spiRead _ _ _ => s

/-- The transfer-level machine: idle, it accepts the host's next command word or waits; busy, it makes one transfer. -/
def tick (s : State) : State :=
  match s.seq with
  | .busy _ _ _ => s.transfer
  | .idle =>
    match s.cmds with
    | [] => s
    | w :: _ =>
      match decodeCommand w with
      | .ok i => issue i s.takeCommand
      | .rejected _ => s.takeCommand.refuse .reservedCommandWord

/-- `n` ticks. -/
def ticks : Nat → State → State
  | 0, s => s
  | n + 1, s => ticks n (tick s)

end Sys2Proof.Machine
end

