-- ==== Sys2Proof/Machine/Step.lean ====
section
/-! DEFINITION. One step: idle, the host's next command as one atomic step (R14, D1), or waiting for one (R123); busy, the
current frame up to its release (R25). -/

namespace Sys2Proof.Machine

def step (s : State) : Host.Outcome State Fault Refusal :=
  match s.seq with
  | .idle =>
    match s.cmds with
    | [] => .next s
    | w :: _ =>
      match decodeCommand w with
      | .ok i => exec i s.takeCommand
      | .rejected _ => .next (s.takeCommand.refuse .reservedCommandWord)
  | .busy [] _ _ => .next s.transfer
  | .busy (f :: _) 0 _ => exec f.instr s
  | .busy (_ :: _) 1 _ => .next (s.transfers 2)
  | .busy (_ :: _) 2 _ => .next (s.transfers 1)

/-- What the command behind a frame placed by `withFetchWord` returns: a read frame belongs to a digitalRead, here of a pin
whose bit-in-port is 0 (log entry 16, DESIGN CHOICE). -/
def placedReturn : Transaction → Return
  | .write => .void
  | .read => .sampled (bitMask 0)

/-- `s` with the opcode-table word `w` where the next step takes its instruction: a command word first in the host's command
stream of the idle block; a frame as the sequencer's only pending one (log entries 2 and 16). -/
def State.withFetchWord (s : State) (nbits w : Nat) : State :=
  match tableBytes nbits w with
  | some (.cmd8, b :: _) => { s with seq := .idle, cmds := b :: s.cmds }
  | some (.spi24, bytes) =>
    match ((decode .spi24 bytes).instr?).bind frameOf with
    | some f => { s with seq := .busy [f] 0 (placedReturn f.dir) }
    | none => s
  | _ => s

end Sys2Proof.Machine
end

