-- ==== Sys2Proof/Safety.lean ====
section
/-! DEFINITION. The terms claims use: a completed command and the frames it emits; the legal frames of the block (R42, R64,
R82); the device behind the transport as a replay of the bus (R49, R125 to R127); what a safe run is. -/

namespace Sys2Proof.Machine

/-! ### Frames on the bus -/

/-- The five events of a frame (R73), the k-th transfer answered by `ans k`. -/
def Frame.events (f : Frame) (ans : Nat → Byte) : List Event :=
  [.assert, .xfer (f.byte 0) (ans 0), .xfer (f.byte 1) (ans 1), .xfer (f.byte 2) (ans 2), .release]

/-- The events of frames sent one after another, each in its own bracket (R44, R73). -/
def eventsOf : List Frame → (Nat → Byte) → List Event
  | [], _ => []
  | f :: fs, ans => f.events ans ++ eventsOf fs (fun k => ans (k + 3))

/-- Between `s` and `t` exactly the frames `fs` were emitted, answered by the transport of `s`, three transfers each. -/
def Emits (s t : State) (fs : List Frame) : Prop :=
  t.bus = s.bus ++ eventsOf fs s.answer ∧ t.rx = s.rx.drop (3 * fs.length) ∧ t.xfers = s.xfers + 3 * fs.length

/-- The byte sent in an event, its answer forgotten: what the block puts on the wire (R81). -/
def Event.sent : Event → Event
  | .assert => .assert
  | .xfer tx _ => .xfer tx 0#8
  | .release => .release

/-- The events still due for the command in progress, their answers unknown (R25). -/
def Seq.pending : Seq → List Event
  | .idle => []
  | .busy [] _ _ => []
  | .busy (f :: fs) 0 _ => eventsOf (f :: fs) (fun _ => 0#8)
  | .busy (f :: fs) 1 _ => (f.events fun _ => 0#8).drop 2 ++ eventsOf fs (fun _ => 0#8)
  | .busy (f :: fs) 2 _ => (f.events fun _ => 0#8).drop 3 ++ eventsOf fs (fun _ => 0#8)

/-! ### Legal frames and sequencer states -/

/-- The registers whose addresses the block puts on the bus (R42). -/
def busRegisters : List ControlRegister := [.iodira, .iodirb, .gppua, .gppub, .gpioa, .gpiob]

/-- The latch registers, the only ones the block reads from the device (R94, R95). -/
def latchRegisters : List ControlRegister := [.gpioa, .gpiob]

/-- A frame the block may emit: its own hardware address; one of the six registers; a read is of a latch register and its
third byte is the address again (R42, R64, R79). -/
def Frame.legal (hw : HwAddr) (f : Frame) : Bool :=
  f.hw == hw &&
    match f.dir with
    | .write => (busRegisters.map addressOf).contains f.addr
    | .read => (latchRegisters.map addressOf).contains f.addr && f.data == f.addr

/-- The frame three sent bytes are, if they are one. -/
def frameOfBytes (b0 b1 b2 : Byte) : Option Frame := ((decodeFrame b0 b1 b2).instr?).bind frameOf

/-- A bus record is a sequence of whole legal frames, each in its own bracket and of exactly three transfers (R73, R75,
R82). -/
def legalBus (hw : HwAddr) : List Event → Bool
  | [] => true
  | .assert :: .xfer b0 _ :: .xfer b1 _ :: .xfer b2 _ :: .release :: es =>
    (match frameOfBytes b0 b1 b2 with
     | some f => f.legal hw
     | none => false) && legalBus hw es
  | _ => false

/-- The sequencer's states that the block's own commands lead to: at least one legal frame is pending; a command that
samples a bit has one frame, a read; any other has only writes (R25, R92, R94). -/
def Seq.legal (hw : HwAddr) : Seq → Bool
  | .idle => true
  | .busy fs _ ret =>
    fs ≠ [] && fs.all (·.legal hw) &&
      match ret with
      | .void => fs.all (fun f => f.dir == .write)
      | .level _ => false
      | .sampled _ => fs.length == 1 && fs.all (fun f => f.dir == .read)

/-- The block's traffic is legal: what is on the bus and what is still due make whole legal frames. -/
def LegalTraffic (s : State) : Prop :=
  s.seq.legal s.hw = true ∧ legalBus s.hw (s.bus ++ s.seq.pending) = true

/-- The entries that no rule writes or reads: the sixteen R19 names (its word "Fourteen" miscounts its own list, log entry
25). -/
def neverWritten : List ControlRegister :=
  [.ipola, .ipolb, .gpintena, .gpintenb, .defvala, .defvalb, .intcona, .intconb, .iocona, .ioconb,
   .intfa, .intfb, .intcapa, .intcapb, .olata, .olatb]

/-! ### Commands in groups -/

/-- The five host commands on a pin (R6); `v` is the value of the digitalWrite. -/
def commandsOn (p : Nat) (v : PinLatchValue) : List Instr :=
  [.pinmodeInput p, .pinmodeOutput p, .pinmodeInputPullup p, .dwrite p v, .dread p]

/-- `pinMode(p, mode)` as an instruction (R59). -/
def pinModeInstr (p : Nat) : PinMode → Instr
  | .input => .pinmodeInput p
  | .output => .pinmodeOutput p
  | .inputPullup => .pinmodeInputPullup p

/-- The commands that write the cache: pinMode in its three modes and digitalWrite (R97). -/
def writingCommandsOn (p : Nat) (v : PinLatchValue) : List Instr :=
  [.pinmodeInput p, .pinmodeOutput p, .pinmodeInputPullup p, .dwrite p v]

/-- The bit of pin `q` in a register byte (R35). -/
def pinBit (b : Byte) (q : Nat) : Bool := b.getLsbD (bit q)

/-- The reserved ranges of R63. -/
def reservedWord (w : Byte) : Bool :=
  (0x30 ≤ w.toNat && w.toNat ≤ 0x3F) || (0x60 ≤ w.toNat && w.toNat ≤ 0x7F) ||
    (0x90 ≤ w.toNat && w.toNat ≤ 0xBF) || (0xC0 ≤ w.toNat && w.toNat ≤ 0xFF)

/-! ### The device behind the transport (R49) -/

/-- A device that keeps the last byte written to each of its registers, as the device-simulating oracle of
spec/95_test_vectors.md does. `selected` holds the bytes received since its chip-select was asserted. It is no part of the
block (R4): claims of coherence are stated with it (log entry 20). -/
structure Device where
  addr : HwAddr
  regs : Cache
  selected : Option (List Byte)
deriving DecidableEq, Repr

/-- A write frame for this device sets the register it names; any other frame changes none. -/
def Device.accept (d : Device) (bytes : List Byte) : Cache :=
  match (decode .spi24 bytes).instr? with
  | some (.spiWrite a r v) => if a = d.addr then d.regs.setIfInBounds r.toNat v else d.regs
  | _ => d.regs

/-- The device sees one bus event. The answers are the device's own and change nothing here. -/
def Device.observe (d : Device) (e : Event) : Device :=
  match e with
  | .assert => { d with selected := some [] }
  | .xfer tx _ => { d with selected := d.selected.map (· ++ [tx]) }
  | .release => { d with regs := (d.selected.map d.accept).getD d.regs, selected := none }

/-- The device after it has seen a sequence of events. -/
def Device.after (d : Device) (es : List Event) : Device := es.foldl Device.observe d

/-- Who sends what a device hears: the engine instance, or some other agent on the bus (R31, R126). -/
inductive Agent where
  | engine
  | other
deriving DecidableEq, Repr

/-- What a device has heard since the instance was reset: stretches of bus events in order, each with its sender. -/
abbrev Traffic := List (Agent × List Event)

/-- All of it, in order. -/
def heard (tr : Traffic) : List Event := tr.flatMap (·.2)

/-- What of it the engine sent. -/
def heardFromEngine (tr : Traffic) : List Event := (tr.filter (·.1 = .engine)).flatMap (·.2)

/-- Premise P1 (R49, R125): the device is at its power-on defaults when the instance is reset. That it is in bank-0
addressing is in `Device.accept`, whose register index is the address byte. -/
def Device.PowerOnDefaults (d : Device) : Prop := d.regs = resetCache

/-- Premise P2 (R49, R126): no agent other than this instance writes the device. Whatever another agent sends, a read or a
frame for another device among it, leaves the device as it was. -/
def Device.NoOtherWriter (d : Device) : Traffic → Prop
  | [] => True
  | (.engine, es) :: tr => (d.after es).NoOtherWriter tr
  | (.other, es) :: tr => d.after es = d ∧ d.NoOtherWriter tr

/-- Premise P3 (R49, R107): every frame the instance emits reaches the device intact. What the device hears from the engine
is exactly what the engine has sent and what its command in progress still has to send, byte for byte. -/
def FramesArriveIntact (s : State) (tr : Traffic) : Prop :=
  (heardFromEngine tr).map Event.sent = (s.bus ++ s.seq.pending).map Event.sent

/-- Premise P4 (R49, R127): the device answers to the instance's hardware address. -/
def Device.AnswersTo (d : Device) (hw : HwAddr) : Prop := d.addr = hw

/-- The shadow cache is coherent (R49): under the launch premises P1 to P4 the device ends with the byte the cache holds in
each register. -/
def Coherent (s : State) : Prop :=
  ∀ (d : Device) (tr : Traffic), d.PowerOnDefaults → d.NoOtherWriter tr → FramesArriveIntact s tr → d.AnswersTo s.hw →
    (d.after (heard tr)).regs = s.cache

/-! ### Safe runs -/

/-- A run has met no unmeaningful input so far (R109). -/
def Clean (s : State) : Prop := s.refusal = none

/-- `n` steps from `s` all answer next states, and none of them meets an unmeaningful input. -/
def SafeRun : Nat → State → Prop
  | 0, s => Clean s
  | n + 1, s => Clean s ∧ ∃ t, step s = .next t ∧ SafeRun n t

end Sys2Proof.Machine
end

