-- ==== Sys2Proof/Certificates/Slice0/Obligations.lean ====
section
/-! DEFINITION. What the model is claimed to do, rule by rule. Every command statement is about an idle block: the host issues
a command only then (R132). -/

open Sys2Proof Sys2Proof.Machine

/-! ### Encoding -/

/-- Decoding the encoding of a well-formed instruction gives it back, operands and all, for all seven rows of the table
(R53, R54, R57 to R61; the CMD8 layout is the spec's decision D2). -/
def Obligations.DecodeOfEncodeIsTheInstruction : Prop :=
  ∀ i : Instr, WellFormed i → decode i.format (encode i) = .ok i

/-- The other direction: bytes that decode are the encoding of what they decode to, and a command word decodes to a
well-formed instruction (R55, R57, R61; decisions D2, D6). -/
def Obligations.EncodeOfDecodeIsTheBytes : Prop :=
  (∀ (fmt : Format) (bytes : List Byte) (i : Instr), decode fmt bytes = .ok i → i.format = fmt ∧ encode i = bytes) ∧
  (∀ (w : Byte) (i : Instr), decodeCommand w = .ok i → WellFormed i)

/-- Words written out from the tables of spec/30_encoding.md and spec/95_test_vectors.md (2.1, 2.3, 2.7), one at least per
row (decision D2 for the command words). -/
def Obligations.DecodedWordsMatchTheTables : Prop :=
  decodeTableWord 8 0x00 = some (.pinmodeInput 0) ∧ decodeTableWord 8 0x15 = some (.pinmodeOutput 5) ∧
  decodeTableWord 8 0x2C = some (.pinmodeInputPullup 12) ∧ decodeTableWord 8 0x45 = some (.dwrite 5 .low) ∧
  decodeTableWord 8 0x5F = some (.dwrite 15 .high) ∧ decodeTableWord 8 0x8F = some (.dread 15) ∧
  decodeTableWord 8 0x35 = none ∧ decodeTableWord 8 0x65 = none ∧ decodeTableWord 8 0x95 = none ∧
  decodeTableWord 8 0xC0 = none ∧
  decodeTableWord 24 0x46135A = some (.spiWrite 3 0x13 0x5A) ∧ decodeTableWord 24 0x4F1313 = some (.spiRead 7 0x13 0x13) ∧
  decodeTableWord 24 0x501313 = none

/-- R63: the reserved words are exactly the ranges of its table, 160 of 256; the idle block refuses such a word with no change
of its state and no bus event, and marks it as such a word, unless the run is marked already (R109, decision D5; log entry
6). -/
def Obligations.ReservedCommandWordsAreRefused : Prop :=
  (∀ w : Byte, reservedWord w = true ↔ decodeCommand w = .rejected .reservedCommandWord) ∧
  (∀ w : Byte, reservedWord w = false ↔ ∃ i, decodeCommand w = .ok i) ∧
  ((List.range 256).filter fun n => reservedWord (BitVec.ofNat 8 n)).length = 160 ∧
  ∀ (s : State) (w : Byte) (ws : List Byte), s.seq = .idle → s.cmds = w :: ws → reservedWord w = true →
    ∃ t, step s = .next t ∧ t.cache = s.cache ∧ t.hw = s.hw ∧ t.seq = s.seq ∧ t.bus = s.bus ∧ t.response = none ∧
      t.refusal = some (s.refusal.getD .reservedCommandWord) ∧ t.rx = s.rx ∧ t.xfers = s.xfers ∧ t.cmds = ws

/-! ### Reset -/

/-- R120: the cache seeds, for any HardwareAddress. -/
def Obligations.ResetSeedsTheCache : Prop :=
  ∀ hw : HwAddr, (State.resetWith hw).get .iodira = 0xFF#8 ∧ (State.resetWith hw).get .iodirb = 0xFF#8 ∧
    ∀ r, r ≠ .iodira → r ≠ .iodirb → (State.resetWith hw).get r = 0x00#8

/-- The rest of the reset state: the strapped address is sampled, no bus event, no response, the sequencer idle (R24, R30,
R119, R121, R122; decisions D16, D17), no refusal mark and nothing on the model's own interfaces (log entries 2, 3, 6); every
pin reads as INPUT (R23); the machine's reset is such a state. -/
def Obligations.ResetIsIdleAndSilent : Prop :=
  (∀ hw : HwAddr, ∀ s, s = State.resetWith hw →
    s.hw = hw ∧ s.seq = .idle ∧ s.response = none ∧ s.refusal = none ∧ s.bus = [] ∧ s.cmds = [] ∧ s.rx = [] ∧
      s.xfers = 0 ∧ ∀ p < 16, s.modeOf p = .input) ∧
  ∃ hw, State.reset = State.resetWith hw

/-! ### Stepping -/

/-- A step of the idle block runs the host's next command word as the instruction it decodes to; a step of a busy block whose
current frame has not started runs that frame as an instruction (R14, R25; log entries 1, 2, 16: the model's choice of a
step). -/
def Obligations.StepRunsTheDecodedInstruction : Prop :=
  (∀ (s : State) (w : Byte) (ws : List Byte) (i : Instr), s.seq = .idle → s.cmds = w :: ws →
    decode .cmd8 [w] = .ok i → step s = exec i { s with cmds := ws }) ∧
  (∀ (s : State) (f : Frame) (fs : List Frame) (ret : Return), s.seq = .busy (f :: fs) 0 ret →
    decode .spi24 [f.byte 0, f.byte 1, f.byte 2] = .ok f.instr ∧ step s = exec f.instr s)

/-- A word of the opcode table placed by `withFetchWord` is the instruction the very next step runs (log entries 2 and 16). -/
def Obligations.StepRunsTheFetchWord : Prop :=
  ∀ (s : State) (nbits w : Nat) (i : Instr), decodeTableWord nbits w = some i →
    ∃ u, step (s.withFetchWord nbits w) = exec i u ∧ u.seq = (s.withFetchWord nbits w).seq ∧ u.cmds = s.cmds ∧
      u.cache = s.cache ∧ u.hw = s.hw ∧ u.bus = s.bus ∧ u.rx = s.rx ∧ u.xfers = s.xfers ∧
      u.response = s.response ∧ u.refusal = s.refusal

/-- Between commands the block waits, and its state survives (R118, R123; the empty command stream is log entry 2). -/
def Obligations.IdleBlockWaitsForACommand : Prop :=
  ∀ s : State, s.seq = .idle → s.cmds = [] → step s = .next s ∧ tick s = s

/-- Every step of the idle block ends in a completed state, whatever word the host offers: no fault, no stop, no stuck command
(R106, R107; transport total by D13, log entry 4). For an admitted command that is R106; that a reserved word is also followed
by a next state is the model's choice (log entry 6), and so is waiting on an empty stream (log entry 2). A busy block with a
legal frame due also goes on. -/
def Obligations.EveryStepCompletes : Prop :=
  (∀ s : State, s.seq = .idle → ∃ t, step s = .next t ∧ t.seq = .idle) ∧
  (∀ s : State, s.seq.legal s.hw = true → ∃ t, step s = .next t)

/-! ### Routing, cache and opcode -/

/-- R84 and R85: a pin's port, bit and one-hot mask, and its registers (R86). -/
def Obligations.PinRouting : Prop :=
  ∀ p < 16, (port p = .A ↔ p / 8 = 0) ∧ (port p = .B ↔ p / 8 = 1) ∧ bit p = p % 8 ∧
    (bitMask p).toNat = 2 ^ (p % 8) ∧ (∀ b < 8, (bitMask p).getLsbD b = true ↔ b = bit p) ∧
    (p < 8 → iodir (port p) = .iodira ∧ gppu (port p) = .gppua ∧ gpio (port p) = .gpioa) ∧
    (8 ≤ p → iodir (port p) = .iodirb ∧ gppu (port p) = .gppub ∧ gpio (port p) = .gpiob)

/-- The cache accessors (R67, R68) and the address map (R69): a read after a write of the same register gives the byte written,
every other register keeps its byte; distinct registers have distinct addresses, all below 0x16, each both the cache index
and the address byte; and the whole address table of R16, whose entries 0, 1, 20 and 21 are the source's and whose entries 2 to
19 are general knowledge (D7; log entry 9, PRESUMED). -/
def Obligations.CacheReadAfterWrite : Prop :=
  (∀ (c : Cache) (r q : ControlRegister) (v : Byte),
    cacheGet (cacheSet c r v) q = if q = r then v else cacheGet c q) ∧
  (∀ c d : Cache, (∀ r, cacheGet c r = cacheGet d r) → c = d) ∧
  (∀ r q : ControlRegister, addressOf r = addressOf q → r = q) ∧
  (∀ r, (addressOf r).toNat = (regAddr r).val ∧ addressOf r ≤ 0x15#8) ∧
  addressOf .iodira = 0x00#8 ∧ addressOf .iodirb = 0x01#8 ∧ addressOf .olata = 0x14#8 ∧ addressOf .olatb = 0x15#8 ∧
  addressOf .gppua = 0x0C#8 ∧ addressOf .gppub = 0x0D#8 ∧ addressOf .gpioa = 0x12#8 ∧ addressOf .gpiob = 0x13#8 ∧
  addressOf .ipola = 0x02#8 ∧ addressOf .ipolb = 0x03#8 ∧ addressOf .gpintena = 0x04#8 ∧ addressOf .gpintenb = 0x05#8 ∧
  addressOf .defvala = 0x06#8 ∧ addressOf .defvalb = 0x07#8 ∧ addressOf .intcona = 0x08#8 ∧ addressOf .intconb = 0x09#8 ∧
  addressOf .iocona = 0x0A#8 ∧ addressOf .ioconb = 0x0B#8 ∧ addressOf .intfa = 0x0E#8 ∧ addressOf .intfb = 0x0F#8 ∧
  addressOf .intcapa = 0x10#8 ∧ addressOf .intcapb = 0x11#8

/-- R74: the opcode byte is its three fields, so it names the device and the direction. -/
def Obligations.OpcodeByteHasItsFields : Prop :=
  (∀ (hw : HwAddr) (t : Transaction), opcode hw t = 0x40#8 ||| (hw.setWidth 8 <<< 1) ||| (if t = .read then 1#8 else 0#8) ∧
    (opcode hw t).extractLsb' 4 4 = 0b0100#4 ∧ (opcode hw t).extractLsb' 1 3 = hw ∧
    ((opcode hw t).getLsbD 0 = true ↔ t = .read)) ∧
  opcode 6 .write = 0x4C#8 ∧ opcode 6 .read = 0x4D#8

/-! ### Frames as instructions -/

/-- `SPI.WRITE` sends exactly its bracket of three transfers, discards what it receives and leaves the cache, the mark and the
host's stream alone; the sequencer moves past it. The last frame of a command that only writes completes it with no value
(R73, R75, R76, R80, R25; log entries 3, 16, 17). -/
def Obligations.SpiWriteSendsItsFrame : Prop :=
  ∀ (s : State) (a : HwAddr) (r d : Byte), r.toNat < 22 →
    ∀ u, u = { s with
      bus := s.bus ++ [.assert, .xfer (opcode a .write) (s.answer 0), .xfer r (s.answer 1), .xfer d (s.answer 2), .release]
      rx := s.rx.drop 3
      xfers := s.xfers + 3 } →
    (s.seq = .idle → exec (.spiWrite a r d) s = .next u) ∧
    (∀ f, s.seq = .busy [f] 0 .void → exec (.spiWrite a r d) s = .next { u with seq := .idle, response := some .done }) ∧
    (∀ f g fs ret, s.seq = .busy (f :: g :: fs) 0 ret →
      exec (.spiWrite a r d) s = .next { u with seq := .busy (g :: fs) 0 ret })

/-- `SPI.READ` sends exactly its bracket of three transfers and changes no cache entry; the command it belongs to returns the
masked bit of the THIRD byte received (R73, R75, R77, R78, R40, R25; log entries 3, 16, 17). -/
def Obligations.SpiReadReturnsTheThirdByte : Prop :=
  ∀ (s : State) (a : HwAddr) (r f : Byte), r.toNat < 22 →
    ∀ u, u = { s with
      bus := s.bus ++ [.assert, .xfer (opcode a .read) (s.answer 0), .xfer r (s.answer 1), .xfer f (s.answer 2), .release]
      rx := s.rx.drop 3
      xfers := s.xfers + 3 } →
    (s.seq = .idle → exec (.spiRead a r f) s = .next u) ∧
    (∀ g ret, s.seq = .busy [g] 0 ret →
      exec (.spiRead a r f) s = .next { u with seq := .idle, response := some (ret.respond (s.answer 2)) }) ∧
    (∀ mask, (Return.sampled mask).respond (s.answer 2) =
      .value (if s.answer 2 &&& mask = 0#8 then .low else .high)) ∧
    (∀ g h fs ret, s.seq = .busy (g :: h :: fs) 0 ret →
      exec (.spiRead a r f) s = .next { u with seq := .busy (h :: fs) 0 ret })

/-- A frame whose register address is none of the 22 is refused, never wrapped or clamped: no event, no change but the mark
(R70, R108, R109; log entries 6, 18). -/
def Obligations.FrameRegisterOutOfRangeIsRefused : Prop :=
  ∀ (s : State) (a : HwAddr) (r d : Byte) (i : Instr), 22 ≤ r.toNat → i = .spiWrite a r d ∨ i = .spiRead a r d →
    (s.seq = .idle ∨ ∃ fs ret, s.seq = .busy fs 0 ret) →
    exec i s = .next { s with response := none, refusal := some (s.refusal.getD .registerOutOfRange) }

/-- A command while one is in progress, and a frame inside another frame's bracket, have no move (R130, R131, R132; D14,
log entry 7). -/
def Obligations.OverlappingCommandsHaveNoMove : Prop :=
  (∀ (s : State) (fs : List Frame) (k : Fin 3) (ret : Return) (p : Nat) (v : PinLatchValue), s.seq = .busy fs k ret →
    ∀ i ∈ commandsOn p v, exec i s = .refused .commandInProgress) ∧
  (∀ (s : State) (fs : List Frame) (k : Fin 3) (ret : Return) (a : HwAddr) (r d : Byte), s.seq = .busy fs k ret → k ≠ 0 →
    exec (.spiWrite a r d) s = .refused .frameInProgress ∧ exec (.spiRead a r d) s = .refused .frameInProgress)

/-! ### The five commands -/

/-- R89: `PINMODE.OUTPUT p` clears the pin's direction bit; it sends the direction frame exactly when the pin was an input;
nothing else in the cache changes.
The command word's layout is the spec's decision D2 (log entry 14). -/
def Obligations.PinModeOutputClearsTheDirectionBit : Prop :=
  ∀ (s : State) (p : Nat), s.seq = .idle → p < 16 →
    ∀ dr dir', dr = iodir (port p) → dir' = s.get dr &&& ~~~bitMask p →
    decodeCommand (0x10#8 ||| BitVec.ofNat 8 p) = .ok (.pinmodeOutput p) ∧
    ∃ t, exec (.pinmodeOutput p) s = .next t ∧
      t.get dr = dir' ∧ (∀ r, r ≠ dr → t.get r = s.get r) ∧ t.hw = s.hw ∧ t.seq = .idle ∧ t.response = some .done ∧
      t.bus = s.bus ++ eventsOf (if s.isInput p then [writeFrame s.hw (addressOf dr) dir'] else []) s.answer

/-- R90: `PINMODE.INPUT p` sets the direction bit and clears the pull-up bit; the pull-up frame is always sent, after a
direction frame exactly when the pin was an output.
The command word's layout, the order of the two frames and a bracket for each are the spec's decisions D2, D10 and D9 (log
entries 14, 12, 11). -/
def Obligations.PinModeInputClearsThePullUp : Prop :=
  ∀ (s : State) (p : Nat), s.seq = .idle → p < 16 →
    ∀ dr pr dir' pu', dr = iodir (port p) → pr = gppu (port p) → dir' = s.get dr ||| bitMask p →
    pu' = s.get pr &&& ~~~bitMask p →
    decodeCommand (BitVec.ofNat 8 p) = .ok (.pinmodeInput p) ∧
    ∃ t, exec (.pinmodeInput p) s = .next t ∧
      t.get dr = dir' ∧ t.get pr = pu' ∧ (∀ r, r ≠ dr → r ≠ pr → t.get r = s.get r) ∧ t.hw = s.hw ∧ t.seq = .idle ∧
      t.response = some .done ∧
      t.bus = s.bus ++ eventsOf ((if s.isInput p then [] else [writeFrame s.hw (addressOf dr) dir']) ++
        [writeFrame s.hw (addressOf pr) pu']) s.answer

/-- R91: `PINMODE.INPUT_PULLUP p` sets the direction bit and the pull-up bit; the pull-up frame is always sent, after a
direction frame exactly when the pin was an output.
The command word's layout, the order of the two frames and a bracket for each are the spec's decisions D2, D10 and D9 (log
entries 14, 12, 11). -/
def Obligations.PinModeInputPullupSetsThePullUp : Prop :=
  ∀ (s : State) (p : Nat), s.seq = .idle → p < 16 →
    ∀ dr pr dir' pu', dr = iodir (port p) → pr = gppu (port p) → dir' = s.get dr ||| bitMask p →
    pu' = s.get pr ||| bitMask p →
    decodeCommand (0x20#8 ||| BitVec.ofNat 8 p) = .ok (.pinmodeInputPullup p) ∧
    ∃ t, exec (.pinmodeInputPullup p) s = .next t ∧
      t.get dr = dir' ∧ t.get pr = pu' ∧ (∀ r, r ≠ dr → r ≠ pr → t.get r = s.get r) ∧ t.hw = s.hw ∧ t.seq = .idle ∧
      t.response = some .done ∧
      t.bus = s.bus ++ eventsOf ((if s.isInput p then [] else [writeFrame s.hw (addressOf dr) dir']) ++
        [writeFrame s.hw (addressOf pr) pu']) s.answer

/-- R93: `DWRITE p, v` on an input pin does nothing; on an output pin it sets the pin's latch bit to `v`, and sends the whole
latch byte exactly when that bit differs.
The command word's layout is the spec's decision D2 (log entry 14). -/
def Obligations.DigitalWriteSetsTheLatchBit : Prop :=
  ∀ (s : State) (p : Nat) (v : PinLatchValue), s.seq = .idle → p < 16 →
    ∀ lr lat', lr = gpio (port p) →
    lat' = (if v = .high then s.get lr ||| bitMask p else s.get lr &&& ~~~bitMask p) →
    decodeCommand (0x40#8 ||| (if v = .high then 0x10#8 else 0x00#8) ||| BitVec.ofNat 8 p) = .ok (.dwrite p v) ∧
    ∃ t, exec (.dwrite p v) s = .next t ∧
      t.get lr = (if s.isInput p then s.get lr else lat') ∧ (∀ r, r ≠ lr → t.get r = s.get r) ∧ t.hw = s.hw ∧
      t.seq = .idle ∧ t.response = some .done ∧
      t.bus = s.bus ++ eventsOf (if s.isInput p = false ∧ pinBit (s.get lr) p ≠ decide (v = .high)
        then [writeFrame s.hw (addressOf lr) lat'] else []) s.answer

/-- R94: `DREAD p` on an output pin returns LOW with no frame; on an input pin it sends one read frame of the latch register,
the address sent twice, and returns the pin's bit of the third received byte. The cache is not updated.
The command word's layout and the flush byte are the spec's decisions D2 and D8 (log entries 14, 10). -/
def Obligations.DigitalReadReturnsThePinsBit : Prop :=
  ∀ (s : State) (p : Nat), s.seq = .idle → p < 16 →
    decodeCommand (0x80#8 ||| BitVec.ofNat 8 p) = .ok (.dread p) ∧
    ∃ t, exec (.dread p) s = .next t ∧ t.cache = s.cache ∧ t.hw = s.hw ∧ t.seq = .idle ∧
      t.response = some (.value (if s.isInput p ∧ pinBit (s.answer 2) p = true then .high else .low)) ∧
      t.bus = s.bus ++ (if s.isInput p then
        [.assert, .xfer (opcode s.hw .read) (s.answer 0), .xfer (addressOf (gpio (port p))) (s.answer 1),
          .xfer (addressOf (gpio (port p))) (s.answer 2), .release] else [])

/-- What the five commands leave alone, and what they take from the transport: the refusal mark and the host's stream are
unchanged; at most two frames' answers are consumed, five events and three answers each; only the three registers of the
pin's port may change (R97, R102; log entries 2, 3, 6). Five events per frame rest on one bracket per frame (R73, decision D9,
log entry 11). -/
def Obligations.CommandsLeaveTheRestAlone : Prop :=
  ∀ (s t : State) (p : Nat) (v : PinLatchValue), p < 16 → ∀ i ∈ commandsOn p v, exec i s = .next t →
    t.hw = s.hw ∧ t.refusal = s.refusal ∧ t.cmds = s.cmds ∧ t.seq = .idle ∧
    (∃ n ≤ 2, t.rx = s.rx.drop (3 * n) ∧ t.xfers = s.xfers + 3 * n ∧ t.bus.length = s.bus.length + 5 * n) ∧
    (∀ r, r ≠ iodir (port p) → r ≠ gppu (port p) → r ≠ gpio (port p) → t.get r = s.get r) ∧
    (i = .dwrite p v → t.get (iodir (port p)) = s.get (iodir (port p)) ∧ t.get (gppu (port p)) = s.get (gppu (port p))) ∧
    (i ≠ .dwrite p v → t.get (gpio (port p)) = s.get (gpio (port p)))

/-- R87: a pin of 16 or more is refused by every command, never reduced modulo 16: no change but the mark, which names that
reason unless the run is marked already; and no command word holds such a pin (R109, decision D6; log entries 6, 22). -/
def Obligations.PinOutOfRangeIsRefused : Prop :=
  (∀ (s : State) (p : Nat) (v : PinLatchValue), s.seq = .idle → 16 ≤ p → ∀ i ∈ commandsOn p v,
    ∃ t, exec i s = .next t ∧ t.cache = s.cache ∧ t.hw = s.hw ∧ t.seq = s.seq ∧ t.bus = s.bus ∧ t.response = none ∧
      t.refusal = some (s.refusal.getD .pinOutOfRange) ∧ t.rx = s.rx ∧ t.xfers = s.xfers ∧ t.cmds = s.cmds) ∧
  (∀ (w : Byte) (p : Nat) (v : PinLatchValue), 16 ≤ p → ∀ i ∈ commandsOn p v, decodeCommand w ≠ .ok i)

/-- The refusal mark stays for the rest of the run, at its first reason, in both machines (R109; that the first reason is the
one kept is log entry 6, the model's choice). -/
def Obligations.RefusalMarkStays : Prop :=
  ∀ (s : State) (why : RefuseReason), s.refusal = some why →
    (∀ t, step s = .next t → t.refusal = some why) ∧ (tick s).refusal = some why

/-! ### Rules of the controller -/

/-- R88: the three pinMode commands are the common algorithm at their modes, on every state. -/
def Obligations.PinModeIsTheCommonAlgorithm : Prop :=
  ∀ (s : State) (p : Nat) (mode : PinMode), exec (pinModeInstr p mode) s = command p (pinModeJob p mode s) s

/-- R97: pinMode and digitalWrite on pin `p` never alter the bits of other pins in any register, nor any entry of the other
port: none of its eleven registers, IODIR, GPPU and GPIO of a pin of that port among them. Which eleven those are is R16's table (names of entries 2 to 19: log
entry 9). -/
def Obligations.OtherPinsKeepTheirBits : Prop :=
  ∀ (s t : State) (p : Nat) (v : PinLatchValue), p < 16 → ∀ i ∈ writingCommandsOn p v, exec i s = .next t →
    (∀ r, ∀ b < 8, b ≠ bit p → (t.get r).getLsbD b = (s.get r).getLsbD b) ∧
    (∀ r, portOf r ≠ port p → t.get r = s.get r) ∧
    (∀ q, q < 16 → port q ≠ port p → t.get (iodir (port q)) = s.get (iodir (port q)) ∧
      t.get (gppu (port q)) = s.get (gppu (port q)) ∧ t.get (gpio (port q)) = s.get (gpio (port q)))

/-- R98: `pinMode(p, OUTPUT)` twice in a row sends one direction frame and then nothing when the pin was an input, nothing at
all when it was an output; a second `digitalWrite(p, v)` on an output pin sends nothing. -/
def Obligations.RepeatedCommandsSendNothing : Prop :=
  ∀ (s : State) (p : Nat), s.seq = .idle → p < 16 →
    (∃ t u, exec (.pinmodeOutput p) s = .next t ∧ exec (.pinmodeOutput p) t = .next u ∧
      u.bus = t.bus ∧ u.cache = t.cache ∧
      (s.isInput p = true → ∃ v, t.bus = s.bus ++ eventsOf [writeFrame s.hw (addressOf (iodir (port p))) v] s.answer) ∧
      (s.isInput p = false → t.bus = s.bus)) ∧
    (∀ v, s.isOutput p = true →
      ∃ t u, exec (.dwrite p v) s = .next t ∧ exec (.dwrite p v) t = .next u ∧ u.bus = t.bus ∧ u.cache = t.cache)

/-- R99: `pinMode(p, INPUT_PULLUP)` always issues a pull-up-register write, carrying the byte the cache then holds, even when
that byte is unchanged; so does `pinMode(p, INPUT)`. That the frame is the last one, in a bracket of its own, is R92 and R73,
the spec's decisions D10 and D9 (log entries 12, 11). -/
def Obligations.PullUpFrameIsUnconditional : Prop :=
  ∀ (s : State) (p : Nat), s.seq = .idle → p < 16 → ∀ i, i = .pinmodeInput p ∨ i = .pinmodeInputPullup p →
    ∃ t r0 r1 r2, exec i s = .next t ∧
      [.assert, .xfer (opcode s.hw .write) r0, .xfer (addressOf (gppu (port p))) r1, .xfer (t.get (gppu (port p))) r2,
        .release] <:+ t.bus ∧
      s.bus.length + 5 ≤ t.bus.length

/-- R100: digitalWrite on an input pin issues zero transactions; digitalRead on an output pin issues zero transactions and
returns LOW. -/
def Obligations.ModeGatedGuards : Prop :=
  ∀ (s : State) (p : Nat) (v : PinLatchValue), s.seq = .idle → p < 16 →
    (s.isInput p = true → ∃ t, exec (.dwrite p v) s = .next t ∧ t.bus = s.bus ∧ t.cache = s.cache) ∧
    (s.isOutput p = true → ∃ t, exec (.dread p) s = .next t ∧ t.bus = s.bus ∧ t.response = some (.value .low))

/-- R101: a digitalRead of an input pin makes exactly three byte exchanges and its value is derived from the third: it is the
same whatever the first two bytes and the third byte's other bits are; with port byte 0xCA a pin whose bit-in-port is 3
reads HIGH, one whose bit-in-port is 0 reads LOW; a digitalRead of an output pin makes no exchange. -/
def Obligations.ReadDependsOnTheThirdByteOnly : Prop :=
  (∀ (s s' : State) (p : Nat), s.seq = .idle → s'.seq = .idle → p < 16 → s.isInput p = true → s'.isInput p = true →
    pinBit (s.answer 2) p = pinBit (s'.answer 2) p →
    ∃ t t', exec (.dread p) s = .next t ∧ exec (.dread p) s' = .next t' ∧
      t.response = t'.response ∧ t.xfers = s.xfers + 3 ∧ t'.xfers = s'.xfers + 3) ∧
  (∀ (s : State) (p : Nat), s.seq = .idle → p < 16 → s.isInput p = true → s.answer 2 = 0xCA#8 →
    (bit p = 3 → ∃ t, exec (.dread p) s = .next t ∧ t.response = some (.value .high)) ∧
    (bit p = 0 → ∃ t, exec (.dread p) s = .next t ∧ t.response = some (.value .low))) ∧
  (∀ (s : State) (p : Nat), s.seq = .idle → p < 16 → s.isOutput p = true →
    ∃ t, exec (.dread p) s = .next t ∧ t.xfers = s.xfers ∧ t.bus = s.bus)

/-- A pin's mode can be read back from the cache (R23): after `pinMode(p, mode)` it is `mode`, and no other pin's mode
changed. -/
def Obligations.PinModeReadsBack : Prop :=
  ∀ (s : State) (p : Nat) (mode : PinMode), s.seq = .idle → p < 16 →
    ∃ t, exec (pinModeInstr p mode) s = .next t ∧ t.modeOf p = mode ∧
      ∀ q < 16, q ≠ p → t.modeOf q = s.modeOf q

/-- The pull-up bit outlives the OUTPUT mode (R133): a pin taken from INPUT_PULLUP to OUTPUT keeps it, a later INPUT clears it,
a later INPUT_PULLUP keeps it. -/
def Obligations.PullUpIsRetainedOnOutput : Prop :=
  ∀ (s : State) (p : Nat), s.seq = .idle → p < 16 →
    ∃ t u, exec (.pinmodeInputPullup p) s = .next t ∧ exec (.pinmodeOutput p) t = .next u ∧
      u.modeOf p = .output ∧ pinBit (u.get (gppu (port p))) p = true ∧
      (∃ x, exec (.pinmodeInput p) u = .next x ∧ pinBit (x.get (gppu (port p))) p = false) ∧
      (∃ x, exec (.pinmodeInputPullup p) u = .next x ∧ pinBit (x.get (gppu (port p))) p = true)

/-! ### Whole-machine rules -/

/-- R24: no step of either machine changes `HW`. -/
def Obligations.HardwareAddressIsImmutable : Prop :=
  ∀ s : State, (∀ t, step s = .next t → t.hw = s.hw) ∧ (tick s).hw = s.hw

/-- No step of either machine changes an entry that no rule writes (the list of R19). -/
def Obligations.NeverWrittenEntriesKeepTheirValue : Prop :=
  ∀ s : State, ∀ r ∈ neverWritten, (∀ t, step s = .next t → t.get r = s.get r) ∧ (tick s).get r = s.get r

/-- A host whose stream holds no reserved word never meets a refusal: from a clean idle state every number of steps is safe
(R63, R106, R109; decision D5). -/
def Obligations.ValidStreamsRunSafely : Prop :=
  ∀ (n : Nat) (s : State), s.seq = .idle → Clean s → (∀ w ∈ s.cmds, reservedWord w = false) → SafeRun n s

/-- The bus record only grows: no step of either machine reorders, changes or withdraws an event (R44, R83). -/
def Obligations.BusRecordOnlyGrows : Prop :=
  ∀ s : State, (∀ t, step s = .next t → s.bus <+: t.bus) ∧ s.bus <+: (tick s).bus

/-- What the block sends never depends on what it receives (R81): two states that agree on `HW`, the cache, the sequencer and
the host's stream, whatever the transport answers and whatever has gone before, send the same and agree again after a
step. -/
def Obligations.SentBytesIgnoreReceivedBytes : Prop :=
  ∀ s s' t : State, s'.hw = s.hw → s'.cache = s.cache → s'.seq = s.seq → s'.cmds = s.cmds → step s = .next t →
    ∃ t', step s' = .next t' ∧ t'.hw = t.hw ∧ t'.cache = t.cache ∧ t'.seq = t.seq ∧ t'.cmds = t.cmds ∧
      ∃ es es', t.bus = s.bus ++ es ∧ t'.bus = s'.bus ++ es' ∧ es.map Event.sent = es'.map Event.sent

/-- HEADLINE, R49: the shadow cache is coherent with what this instance has written to the device. Every step of either machine
keeps it, from every state, mid-frame ones included. The premises P1 to P4 are in `Coherent`; the device is the model's replay
(log entries 20, 27), and for a state in the middle of a command of `tick` the claim rests on the cache being updated at
acceptance (log entry 13). -/
def Obligations.EveryStepKeepsTheCacheCoherent : Prop :=
  ∀ s : State, Coherent s → (∀ t, step s = .next t → Coherent t) ∧ Coherent (tick s)

/-- After reset the cache is coherent with a device at its power-on defaults (R49, R125), for any hardware address. -/
def Obligations.ResetIsCoherent : Prop :=
  ∀ hw : HwAddr, Coherent (State.resetWith hw)

/-- HEADLINE: the block's traffic stays legal, in both machines: whole frames of three transfers, each in its own bracket,
carrying the block's own address and one of six registers; reads only of a latch register, with the address as flush byte
(R42, R64, R73, R75, R79, R82; decisions D8, D9, log entries 10, 11). -/
def Obligations.EveryStepKeepsTheTrafficLegal : Prop :=
  ∀ s : State, LegalTraffic s → (∀ t, step s = .next t → LegalTraffic t) ∧ LegalTraffic (tick s)

/-- After reset the traffic is legal, the base case of EveryStepKeepsTheTrafficLegal: nothing is on the bus and nothing is due
(R121, R122; decision D17). -/
def Obligations.ResetTrafficIsLegal : Prop :=
  ∀ hw : HwAddr, LegalTraffic (State.resetWith hw) ∧ (State.resetWith hw).bus = [] ∧ (State.resetWith hw).seq.pending = []

/-- R25, D1: a command as one atomic step and the same command stepped one byte transfer at a time give the same bus
events in the same order and the same final state. From every idle state with a command waiting, the transfer-level machine
reaches exactly the state the atomic step answers, after one tick to accept it and one per transfer, and it is busy at every
tick before (log entries 1, 13, 24). -/
def Obligations.AtomicAndTransferLevelAgree : Prop :=
  ∀ s t : State, s.seq = .idle → s.cmds ≠ [] → step s = .next t →
    ∃ n, t.xfers = s.xfers + n ∧ ticks (n + 1) s = t ∧ ∀ m, 1 ≤ m → m ≤ n → (ticks m s).seq ≠ .idle

/-- A frame as one step and as its transfers agree too (R25, R75): from a busy state at transfer `k` of a frame, the step is
what the remaining transfers make of it. -/
def Obligations.FrameStepIsItsTransfers : Prop :=
  ∀ (s : State) (f : Frame) (fs : List Frame) (k : Fin 3) (ret : Return), s.seq = .busy (f :: fs) k ret →
    f.addr.toNat < 22 → step s = .next (ticks (3 - k.val) s) ∧ (ticks (3 - k.val) s).xfers = s.xfers + (3 - k.val)
end

