-- ==== Sys2Proof/Laws/State.lean ====
section
/-! SUPPORT. What each named update of State does to each field it is read through: one lemma per field per update. -/

namespace Sys2Proof.Machine

section Record
variable (s : State) (e : Event)
@[simp] theorem State.record_hw : (s.record e).hw = s.hw := rfl
@[simp] theorem State.record_cache : (s.record e).cache = s.cache := rfl
@[simp] theorem State.record_seq : (s.record e).seq = s.seq := rfl
@[simp] theorem State.record_response : (s.record e).response = s.response := rfl
@[simp] theorem State.record_refusal : (s.record e).refusal = s.refusal := rfl
@[simp] theorem State.record_cmds : (s.record e).cmds = s.cmds := rfl
@[simp] theorem State.record_rx : (s.record e).rx = s.rx := rfl
@[simp] theorem State.record_xfers : (s.record e).xfers = s.xfers := rfl
@[simp] theorem State.record_bus : (s.record e).bus = s.bus ++ [e] := rfl
end Record

section Xfer
variable (s : State) (tx : Byte)
@[simp] theorem State.xfer_hw : (s.xfer tx).hw = s.hw := rfl
@[simp] theorem State.xfer_cache : (s.xfer tx).cache = s.cache := rfl
@[simp] theorem State.xfer_seq : (s.xfer tx).seq = s.seq := rfl
@[simp] theorem State.xfer_response : (s.xfer tx).response = s.response := rfl
@[simp] theorem State.xfer_refusal : (s.xfer tx).refusal = s.refusal := rfl
@[simp] theorem State.xfer_cmds : (s.xfer tx).cmds = s.cmds := rfl
@[simp] theorem State.xfer_rx : (s.xfer tx).rx = s.rx.tail := rfl
@[simp] theorem State.xfer_xfers : (s.xfer tx).xfers = s.xfers + 1 := rfl
@[simp] theorem State.xfer_bus : (s.xfer tx).bus = s.bus ++ [.xfer tx (s.answer 0)] := rfl
end Xfer

section Complete
variable (s : State) (ret : Return) (b : Byte)
@[simp] theorem State.complete_hw : (s.complete ret b).hw = s.hw := rfl
@[simp] theorem State.complete_cache : (s.complete ret b).cache = s.cache := rfl
@[simp] theorem State.complete_seq : (s.complete ret b).seq = .idle := rfl
@[simp] theorem State.complete_response : (s.complete ret b).response = some (ret.respond b) := rfl
@[simp] theorem State.complete_refusal : (s.complete ret b).refusal = s.refusal := rfl
@[simp] theorem State.complete_cmds : (s.complete ret b).cmds = s.cmds := rfl
@[simp] theorem State.complete_rx : (s.complete ret b).rx = s.rx := rfl
@[simp] theorem State.complete_xfers : (s.complete ret b).xfers = s.xfers := rfl
@[simp] theorem State.complete_bus : (s.complete ret b).bus = s.bus := rfl
end Complete

section Refuse
variable (s : State) (why : RefuseReason)
@[simp] theorem State.refuse_hw : (s.refuse why).hw = s.hw := rfl
@[simp] theorem State.refuse_cache : (s.refuse why).cache = s.cache := rfl
@[simp] theorem State.refuse_seq : (s.refuse why).seq = s.seq := rfl
@[simp] theorem State.refuse_response : (s.refuse why).response = none := rfl
@[simp] theorem State.refuse_refusal : (s.refuse why).refusal = some (s.refusal.getD why) := rfl
@[simp] theorem State.refuse_cmds : (s.refuse why).cmds = s.cmds := rfl
@[simp] theorem State.refuse_rx : (s.refuse why).rx = s.rx := rfl
@[simp] theorem State.refuse_xfers : (s.refuse why).xfers = s.xfers := rfl
@[simp] theorem State.refuse_bus : (s.refuse why).bus = s.bus := rfl
end Refuse

section TakeCommand
variable (s : State)
@[simp] theorem State.takeCommand_hw : s.takeCommand.hw = s.hw := rfl
@[simp] theorem State.takeCommand_cache : s.takeCommand.cache = s.cache := rfl
@[simp] theorem State.takeCommand_seq : s.takeCommand.seq = s.seq := rfl
@[simp] theorem State.takeCommand_response : s.takeCommand.response = s.response := rfl
@[simp] theorem State.takeCommand_refusal : s.takeCommand.refusal = s.refusal := rfl
@[simp] theorem State.takeCommand_cmds : s.takeCommand.cmds = s.cmds.tail := rfl
@[simp] theorem State.takeCommand_rx : s.takeCommand.rx = s.rx := rfl
@[simp] theorem State.takeCommand_xfers : s.takeCommand.xfers = s.xfers := rfl
@[simp] theorem State.takeCommand_bus : s.takeCommand.bus = s.bus := rfl
end TakeCommand

section Jobs
variable (j : Job) (hw : HwAddr) (r : ControlRegister) (v m : Byte) (s : State)
@[simp] theorem State.newJob_cache : s.newJob.cache = s.cache := rfl
@[simp] theorem State.newJob_frames : s.newJob.frames = [] := rfl
@[simp] theorem State.newJob_ret : s.newJob.ret = .void := rfl
@[simp] theorem Job.set_cache : (j.set r v).cache = cacheSet j.cache r v := rfl
@[simp] theorem Job.set_frames : (j.set r v).frames = j.frames := rfl
@[simp] theorem Job.set_ret : (j.set r v).ret = j.ret := rfl
@[simp] theorem Job.sendWrite_cache : (j.sendWrite hw r v).cache = j.cache := rfl
@[simp] theorem Job.sendWrite_frames :
    (j.sendWrite hw r v).frames = j.frames ++ [writeFrame hw (addressOf r) v] := rfl
@[simp] theorem Job.sendWrite_ret : (j.sendWrite hw r v).ret = j.ret := rfl
@[simp] theorem Job.write_cache : (j.write hw r v).cache = cacheSet j.cache r v := rfl
@[simp] theorem Job.write_frames : (j.write hw r v).frames = j.frames ++ [writeFrame hw (addressOf r) v] := rfl
@[simp] theorem Job.write_ret : (j.write hw r v).ret = j.ret := rfl
@[simp] theorem Job.read_cache : (j.read hw r m).cache = j.cache := rfl
@[simp] theorem Job.read_frames : (j.read hw r m).frames = j.frames ++ [readFrame hw (addressOf r)] := rfl
@[simp] theorem Job.read_ret : (j.read hw r m).ret = .sampled m := rfl
end Jobs

/-- The answers after one transfer are the later answers of before. -/
@[simp] theorem State.xfer_answer (s : State) (tx : Byte) (k : Nat) : (s.xfer tx).answer k = s.answer (k + 1) := by
  simp only [State.answer, State.xfer_rx, State.xfer_xfers, List.getElem?_tail]
  rw [show s.xfers + 1 + k = s.xfers + (k + 1) by omega]

@[simp] theorem State.record_answer (s : State) (e : Event) (k : Nat) : (s.record e).answer k = s.answer k := rfl

end Sys2Proof.Machine
end

