-- ==== Sys2Proof/Laws/Ops.lean ====
section
/-! SUPPORT. One lemma per shared operation, saying everything it can do. Proofs cite these instead of unfolding. -/

namespace Sys2Proof.Machine

/-! ### The cache -/

theorem regAddr_injective {r q : ControlRegister} (h : regAddr r = regAddr q) : r = q := by
  cases r <;> cases q <;> first | rfl | exact absurd h (by decide)

theorem regAddr_surjective (a : Fin Config.numRegs) : ∃ r, regAddr r = a := by
  have : ∀ a : Fin 22, ∃ r ∈ [ControlRegister.iodira, .iodirb, .ipola, .ipolb, .gpintena, .gpintenb, .defvala, .defvalb,
      .intcona, .intconb, .iocona, .ioconb, .gppua, .gppub, .intfa, .intfb, .intcapa, .intcapb, .gpioa, .gpiob, .olata,
      .olatb], regAddr r = a := by decide
  obtain ⟨r, -, h⟩ := this a
  exact ⟨r, h⟩

theorem addressOf_toNat (r : ControlRegister) : (addressOf r).toNat = (regAddr r).val := by
  cases r <;> rfl

/-- A read after a write: the byte written at that register, the old byte at every other (R67, R68). -/
theorem cacheGet_cacheSet (c : Cache) (r q : ControlRegister) (v : Byte) :
    cacheGet (cacheSet c r v) q = if q = r then v else cacheGet c q := by
  simp only [cacheGet, cacheSet, Vector.get_eq_getElem, Vector.getElem_set]
  by_cases h : q = r
  · simp [h]
  · rw [if_neg h, if_neg fun e => h (regAddr_injective (Fin.ext e)).symm]

@[simp] theorem cacheGet_cacheSet_self (c : Cache) (r : ControlRegister) (v : Byte) :
    cacheGet (cacheSet c r v) r = v := by simp [cacheGet_cacheSet]

theorem cacheGet_cacheSet_ne (c : Cache) {r q : ControlRegister} (v : Byte) (h : q ≠ r) :
    cacheGet (cacheSet c r v) q = cacheGet c q := by simp [cacheGet_cacheSet, h]

/-- A cache is its 22 entries. -/
theorem cache_ext {c d : Cache} (h : ∀ r, cacheGet c r = cacheGet d r) : c = d := by
  ext a ha
  obtain ⟨r, hr⟩ := regAddr_surjective ⟨a, ha⟩
  have := h r
  simp only [cacheGet, hr, Vector.get_eq_getElem] at this
  rw [this]

/-- Writing the byte an entry already holds changes nothing. -/
theorem cacheSet_cacheGet (c : Cache) (r : ControlRegister) : cacheSet c r (cacheGet c r) = c := by
  refine cache_ext fun q => ?_
  rw [cacheGet_cacheSet]
  split <;> simp_all

/-- The device's write at a bus address is the cache's write at the register of that address. -/
theorem setIfInBounds_addressOf (c : Cache) (r : ControlRegister) (v : Byte) :
    c.setIfInBounds (addressOf r).toNat v = cacheSet c r v := by
  simp only [addressOf_toNat, cacheSet, Vector.setIfInBounds, Vector.set]
  simp [Array.setIfInBounds]

/-! ### Frames -/

/-- A register transaction emits its five events and takes three answers; nothing else changes (R73). -/
theorem State.sendFrame_eq (f : Frame) (s : State) :
    s.sendFrame f = { s with bus := s.bus ++ f.events s.answer, rx := s.rx.drop 3, xfers := s.xfers + 3 } := by
  simp [State.sendFrame, State.csAssert, State.csRelease, State.record, State.xfer, State.answer, Frame.events,
    ← List.drop_one, List.getElem?_drop, Nat.add_comm, Nat.add_left_comm]

@[simp] theorem eventsOf_nil (ans : Nat → Byte) : eventsOf [] ans = [] := rfl

@[simp] theorem eventsOf_cons (f : Frame) (fs : List Frame) (ans : Nat → Byte) :
    eventsOf (f :: fs) ans = f.events ans ++ eventsOf fs (fun k => ans (k + 3)) := rfl

theorem eventsOf_length (fs : List Frame) (ans : Nat → Byte) : (eventsOf fs ans).length = 5 * fs.length := by
  induction fs generalizing ans with
  | nil => rfl
  | cons f fs ih => simp [ih, Frame.events]; omega

/-- The answers after `n` transfers. -/
theorem State.answer_later (s t : State) (n : Nat) (hr : t.rx = s.rx.drop n) (hx : t.xfers = s.xfers + n) (k : Nat) :
    t.answer k = s.answer (k + n) := by
  simp [State.answer, hr, hx, List.getElem?_drop, Nat.add_comm, Nat.add_left_comm]

/-- Running the last pending frame completes the command; running another makes the next one current (R25). -/
theorem State.runFrame_busy {s : State} {g : Frame} {fs : List Frame} {k : Fin 3} {ret : Return}
    (h : s.seq = .busy (g :: fs) k ret) (f : Frame) :
    s.runFrame f = { s with
      bus := s.bus ++ f.events s.answer
      rx := s.rx.drop 3
      xfers := s.xfers + 3
      seq := if fs = [] then .idle else .busy fs 0 ret
      response := if fs = [] then some (ret.respond (s.answer 2)) else s.response } := by
  cases fs <;> simp [State.runFrame, State.sendFrame_eq, State.dropFrame, h, State.complete, State.rx2]

/-- The sequencer emits all its pending frames in order and completes (R25, R44). -/
theorem State.runFrames_busy (fs : List Frame) (f : Frame) (s : State) {k : Fin 3} {ret : Return}
    (h : s.seq = .busy (f :: fs) k ret) :
    s.runFrames (f :: fs) = { s with
      bus := s.bus ++ eventsOf (f :: fs) s.answer
      rx := s.rx.drop (3 * (fs.length + 1))
      xfers := s.xfers + 3 * (fs.length + 1)
      seq := .idle
      response := some (ret.respond (s.answer (3 * fs.length + 2))) } := by
  induction fs generalizing f s k with
  | nil => simp [State.runFrames, State.runFrame_busy h]
  | cons g fs ih =>
    rw [State.runFrames, State.runFrame_busy h, ih g _ rfl]
    have ha : State.answer { s with
        bus := s.bus ++ f.events s.answer
        rx := s.rx.drop 3
        xfers := s.xfers + 3
        seq := .busy (g :: fs) 0 ret
        response := s.response } = fun i => s.answer (i + 3) := funext fun i => State.answer_later _ _ 3 rfl rfl i
    have h3 : 3 + 3 * (fs.length + 1) = 3 * (fs.length + 1 + 1) := by omega
    simp only [reduceCtorEq, if_false, ha, List.drop_drop, List.append_assoc, eventsOf_cons f, List.length_cons,
      Nat.add_assoc s.xfers, h3]
    rw [show 3 * fs.length + 2 + 3 = 3 * (fs.length + 1) + 2 by omega]

/-- The byte the return of a job is made from: the third byte of its last frame. -/
def Job.lastByte (j : Job) (s : State) : Byte := if j.frames = [] then 0#8 else s.answer (3 * j.frames.length - 1)

/-- A command as one step: its cache, its frames' events in order, its response; nothing else changes (R14, R25). -/
theorem State.perform_eq (j : Job) (s : State) :
    s.perform j = { s with
      cache := j.cache
      bus := s.bus ++ eventsOf j.frames s.answer
      rx := s.rx.drop (3 * j.frames.length)
      xfers := s.xfers + 3 * j.frames.length
      seq := .idle
      response := some (j.ret.respond (j.lastByte s)) } := by
  obtain ⟨c, fs, ret⟩ := j
  cases fs with
  | nil => simp [State.perform, State.start, State.runFrames, Job.lastByte]
  | cons f fs =>
    simp only [State.perform, State.start]
    rw [State.runFrames_busy fs f _ rfl]
    simp [Job.lastByte, Nat.mul_add, State.answer]
    rfl

/-! ### Outcomes -/

/-- When a command answers a next state, and which. -/
theorem command_eq_next {p : Nat} {j : Job} {s t : State} :
    command p j s = .next t ↔
      s.seq = .idle ∧ t = if p < Config.numPins then s.perform j else s.refuse .pinOutOfRange := by
  cases hs : s.seq with
  | idle => simp [command, hs, eq_comm]
  | busy fs k ret => simp [command, hs]

theorem command_idle {s : State} (h : s.seq = .idle) (p : Nat) (j : Job) :
    command p j s = .next (if p < 16 then s.perform j else s.refuse .pinOutOfRange) :=
  command_eq_next.2 ⟨h, rfl⟩

/-- When a frame answers a next state, and which. -/
theorem frame_eq_next {f : Frame} {s t : State} :
    frame f s = .next t ↔
      (s.seq = .idle ∨ ∃ fs ret, s.seq = .busy fs 0 ret) ∧
        t = if f.addr.toNat < Config.numRegs then s.runFrame f else s.refuse .registerOutOfRange := by
  cases hs : s.seq with
  | idle => simp [frame, hs, eq_comm]
  | busy fs k ret => fin_cases k <;> simp [frame, hs, eq_comm]

end Sys2Proof.Machine
end

