-- ==== Sys2Proof/Laws/Bits.lean ====
section
/-! SUPPORT. The one-hot mask of a pin, and what setting, clearing and testing its bit does to a byte (R84, R85, R97). -/

namespace Sys2Proof.Machine

theorem bit_lt (p : Nat) : bit p < 8 := Nat.mod_lt _ (by decide)

/-- The mask has exactly the pin's bit set (R85). -/
theorem getLsbD_bitMask (p b : Nat) : (bitMask p).getLsbD b = decide (b = bit p) := by
  have hp := bit_lt p
  generalize hk : bit p = k at *
  simp only [bitMask, hk]
  by_cases hb : b < 8
  · have : ∀ k < 8, ∀ b < 8, (1#8 <<< k).getLsbD b = decide (b = k) := by decide
    exact this k hp b hb
  · rw [BitVec.getLsbD_of_ge _ _ (by omega)]
    exact (decide_eq_false (by omega)).symm

theorem pinBit_and_not (x : Byte) (p q : Nat) :
    pinBit (x &&& ~~~bitMask p) q = (pinBit x q && !decide (bit q = bit p)) := by
  simp only [pinBit, BitVec.getLsbD_and, BitVec.getLsbD_not, getLsbD_bitMask, bit_lt, decide_true, Bool.true_and]

theorem pinBit_or (x : Byte) (p q : Nat) : pinBit (x ||| bitMask p) q = (pinBit x q || decide (bit q = bit p)) := by
  simp [pinBit, getLsbD_bitMask]

/-- Testing a byte against the mask tests the pin's bit. -/
theorem and_bitMask_ne_zero (x : Byte) (p : Nat) : x &&& bitMask p ≠ 0#8 ↔ pinBit x p = true := by
  constructor
  · intro h
    by_contra hn
    refine h (BitVec.eq_of_getLsbD_eq fun b hb => ?_)
    simp only [BitVec.getLsbD_and, getLsbD_bitMask, BitVec.getLsbD_zero, Bool.and_eq_false_imp, decide_eq_false_iff_not]
    rintro h rfl
    exact hn h
  · intro h e
    have := congrArg (fun y => pinBit y p) e
    simp [pinBit, getLsbD_bitMask] at this
    simp [pinBit, this] at h

/-- Clearing the bit changes the byte exactly when the bit was set. -/
theorem and_not_bitMask_ne (x : Byte) (p : Nat) : x &&& ~~~bitMask p ≠ x ↔ pinBit x p = true := by
  constructor
  · intro h
    by_contra hn
    refine h (BitVec.eq_of_getLsbD_eq fun b hb => ?_)
    simp only [BitVec.getLsbD_and, BitVec.getLsbD_not, getLsbD_bitMask, hb, decide_true, Bool.true_and]
    by_cases hbp : b = bit p
    · subst hbp
      simpa [pinBit] using hn
    · simp [hbp]
  · intro h e
    have := congrArg (fun y => pinBit y p) e
    simp [pinBit_and_not, h] at this

/-- Setting the bit changes the byte exactly when the bit was clear. -/
theorem or_bitMask_ne (x : Byte) (p : Nat) : x ||| bitMask p ≠ x ↔ pinBit x p = false := by
  constructor
  · intro h
    by_contra hn
    refine h (BitVec.eq_of_getLsbD_eq fun b hb => ?_)
    simp only [BitVec.getLsbD_or, getLsbD_bitMask]
    by_cases hbp : b = bit p
    · subst hbp
      simpa [pinBit] using hn
    · simp [hbp]
  · intro h e
    have := congrArg (fun y => pinBit y p) e
    simp [pinBit_or, h] at this

/-- Other bits of a byte keep their value when the pin's bit is cleared or set (R97). -/
theorem getLsbD_and_not_bitMask (x : Byte) {p b : Nat} (h : b ≠ bit p) :
    (x &&& ~~~bitMask p).getLsbD b = x.getLsbD b := by
  by_cases hb : b < 8
  · simp only [BitVec.getLsbD_and, BitVec.getLsbD_not, getLsbD_bitMask, h, hb, decide_true, decide_false,
      Bool.not_false, Bool.and_true]
  · rw [BitVec.getLsbD_of_ge _ _ (by omega), BitVec.getLsbD_of_ge _ _ (by omega)]

theorem getLsbD_or_bitMask (x : Byte) {p b : Nat} (h : b ≠ bit p) :
    (x ||| bitMask p).getLsbD b = x.getLsbD b := by
  simp [getLsbD_bitMask, h]

/-! ### The predicates in terms of the pin's bit -/

/-- The guard tests the pin's cached direction bit (R26). -/
theorem State.isInput_eq (s : State) (p : Nat) : s.isInput p = pinBit (s.get (iodir (port p))) p := by
  rw [Bool.eq_iff_iff]
  simp only [State.isInput, decide_eq_true_eq]
  exact and_bitMask_ne_zero _ _

theorem State.isOutput_eq (s : State) (p : Nat) : s.isOutput p = !pinBit (s.get (iodir (port p))) p := by
  simp [State.isOutput, State.isInput_eq]

/-- The sampled level is the pin's bit of the byte (R94). -/
theorem levelOf_bitMask (x : Byte) (p : Nat) : levelOf x (bitMask p) = if pinBit x p = true then .high else .low := by
  simp only [levelOf, and_bitMask_ne_zero]

/-- Making a pin an output is a change exactly when it was an input (R89, R96). -/
theorem State.dirty_clear (s : State) (r : ControlRegister) (p : Nat) :
    s.dirty r (s.get r &&& ~~~bitMask p) = pinBit (s.get r) p := by
  rw [Bool.eq_iff_iff]
  simp only [State.dirty, decide_eq_true_eq]
  exact and_not_bitMask_ne _ _

/-- Setting a bit is a change exactly when it was clear (R90, R91, R96). -/
theorem State.dirty_set (s : State) (r : ControlRegister) (p : Nat) :
    s.dirty r (s.get r ||| bitMask p) = !pinBit (s.get r) p := by
  rw [Bool.eq_iff_iff]
  simp only [State.dirty, decide_eq_true_eq, Bool.not_eq_true']
  exact or_bitMask_ne _ _

/-- The latch byte changes exactly when the pin's cached latch bit differs from the value (R93, R96). -/
theorem State.dirty_latch (s : State) (r : ControlRegister) (p : Nat) (v : PinLatchValue) :
    s.dirty r (latchCandidate v (bitMask p) (s.get r)) = decide (pinBit (s.get r) p ≠ decide (v = .high)) := by
  cases v
  · simp [latchCandidate, State.dirty_clear]
  · simp [latchCandidate, State.dirty_set]

/-! ### Registers of a port -/

@[simp] theorem portOf_iodir (x : Port) : portOf (iodir x) = x := by cases x <;> rfl
@[simp] theorem portOf_gppu (x : Port) : portOf (gppu x) = x := by cases x <;> rfl
@[simp] theorem portOf_gpio (x : Port) : portOf (gpio x) = x := by cases x <;> rfl
theorem iodir_ne_gppu (x y : Port) : iodir x ≠ gppu y := by cases x <;> cases y <;> decide
theorem iodir_ne_gpio (x y : Port) : iodir x ≠ gpio y := by cases x <;> cases y <;> decide
theorem gppu_ne_gpio (x y : Port) : gppu x ≠ gpio y := by cases x <;> cases y <;> decide
theorem iodir_injective {x y : Port} (h : iodir x = iodir y) : x = y := by cases x <;> cases y <;> simp_all [iodir]
theorem gppu_injective {x y : Port} (h : gppu x = gppu y) : x = y := by cases x <;> cases y <;> simp_all [gppu]
theorem gpio_injective {x y : Port} (h : gpio x = gpio y) : x = y := by cases x <;> cases y <;> simp_all [gpio]

/-- A pin below 16 is its port and its bit. -/
theorem pin_ext {p q : Nat} (hp : p < 16) (hq : q < 16) (h : port p = port q) (hb : bit p = bit q) : p = q := by
  simp only [bit] at hb
  have : p / 8 = q / 8 := by
    have h1 : p / 8 < 2 := by omega
    have h2 : q / 8 < 2 := by omega
    simp only [port] at h
    split at h <;> split at h <;> simp_all <;> omega
  omega

end Sys2Proof.Machine
end

