-- ==== Sys2Proof/Laws/Decode.lean ====
section
/-! SUPPORT. The decoder on the bytes of a frame, and on the reserved words. -/

namespace Sys2Proof

/-- The opcode byte the block builds is the one the encoding table gives (R52, R74). -/
theorem opcode_eq_opcodeWord : ∀ (a : HwAddr) (t : Transaction), Machine.opcode a t = opcodeWord a t := by
  intro a t
  cases t <;> revert a <;> decide

theorem fixedField_opcodeWord : ∀ (a : HwAddr) (t : Transaction), fixedField (opcodeWord a t) = 0b0100#4 := by
  intro a t
  cases t <;> revert a <;> decide

theorem hwField_opcodeWord : ∀ (a : HwAddr) (t : Transaction), hwField (opcodeWord a t) = a := by
  intro a t
  cases t <;> revert a <;> decide

theorem dirField_opcodeWord : ∀ (a : HwAddr) (t : Transaction), dirField (opcodeWord a t) = t := by
  intro a t
  cases t <;> revert a <;> decide

/-- A byte whose high nibble is `0100` is the opcode byte of its fields. -/
theorem opcodeWord_fields : ∀ b : Byte, fixedField b = 0b0100#4 → opcodeWord (hwField b) (dirField b) = b := by
  decide

/-- The frame of an opcode byte. -/
theorem decodeFrame_opcodeWord (a : HwAddr) (t : Transaction) (b1 b2 : Byte) :
    decodeFrame (opcodeWord a t) b1 b2 =
      .ok (match t with
        | .write => .spiWrite a b1 b2
        | .read => .spiRead a b1 b2) := by
  simp only [decodeFrame, fixedField_opcodeWord, dirField_opcodeWord, hwField_opcodeWord, if_true]
  cases t <;> rfl

/-- Every word either decodes or is of a reserved range (R63). -/
theorem decodeCommand_rejected_iff : ∀ w : Byte,
    decodeCommand w = .rejected .reservedCommandWord ↔ Machine.reservedWord w = true := by
  decide

/-- What a command word can decode to: a command, on one of the 16 pins (R57, R61). -/
theorem decodeCommand_ok {w : Byte} {i : Instr} (h : decodeCommand w = .ok i) :
    ∃ p < 16, ∃ v, i ∈ Machine.commandsOn p v := by
  have hp : pinField w < 16 := (w.extractLsb' 0 4).isLt
  simp only [decodeCommand] at h
  split at h <;> simp only [Decoded.ok.injEq, reduceCtorEq] at h <;> subst h
  case h_5 => exact ⟨pinField w, hp, .high, by simp [Machine.commandsOn]⟩
  all_goals exact ⟨pinField w, hp, .low, by simp [Machine.commandsOn]⟩

/-- A rejected word is rejected as reserved. -/
theorem decodeCommand_rejected {w : Byte} {e : DecodeError} (h : decodeCommand w = .rejected e) :
    e = .reservedCommandWord := by
  simp only [decodeCommand] at h
  split at h <;> simp_all

namespace Machine

/-- The three bytes of a frame decode to the frame's instruction (R53, R54). -/
theorem Frame.decode_bytes (f : Frame) : decode .spi24 [f.byte 0, f.byte 1, f.byte 2] = .ok f.instr := by
  obtain ⟨hw, dir, addr, data⟩ := f
  cases dir <;> simp only [decode, Frame.byte, opcode_eq_opcodeWord, decodeFrame_opcodeWord, Frame.instr]

@[simp] theorem frameOf_instr (f : Frame) : frameOf f.instr = some f := by
  obtain ⟨hw, dir, addr, data⟩ := f
  cases dir <;> rfl

theorem frameOf_eq_some {i : Instr} {f : Frame} (h : frameOf i = some f) : i = f.instr := by
  cases i <;> simp only [frameOf, Option.some.injEq, reduceCtorEq] at h <;> subst h <;> rfl

@[simp] theorem frameOfBytes_bytes (f : Frame) : frameOfBytes (f.byte 0) (f.byte 1) (f.byte 2) = some f := by
  have := f.decode_bytes
  simp only [decode] at this
  simp [frameOfBytes, this, Decoded.instr?]

/-- Running a frame's instruction is running the frame. -/
theorem exec_instr (f : Frame) (s : State) : exec f.instr s = frame f s := by
  obtain ⟨hw, dir, addr, data⟩ := f
  cases dir <;> rfl

end Machine

end Sys2Proof
end

