-- ==== Sys2Proof/Laws/Sequencer.lean ====
section
/-! SUPPORT. The transfer-level machine: three transfers are one frame, and a command's frames are its transfers (R25). -/

namespace Sys2Proof.Machine

theorem State.transfers_add (m n : Nat) (s : State) : s.transfers (m + n) = (s.transfers m).transfers n := by
  induction m generalizing s with
  | zero => simp [State.transfers]
  | succ m ih => rw [Nat.add_right_comm, State.transfers, ih, State.transfers]

theorem ticks_add (m n : Nat) (s : State) : ticks (m + n) s = ticks n (ticks m s) := by
  induction m generalizing s with
  | zero => simp [ticks]
  | succ m ih => rw [Nat.add_right_comm, ticks, ih, ticks]

/-- A busy machine's tick is a transfer. -/
theorem tick_busy {s : State} {fs : List Frame} {k : Fin 3} {ret : Return} (h : s.seq = .busy fs k ret) :
    tick s = s.transfer := by simp [tick, h]

/-! The three transfers of a frame. -/

theorem State.transfer_first {s : State} {f : Frame} {fs : List Frame} {ret : Return} (h : s.seq = .busy (f :: fs) 0 ret) :
    s.transfer = { s with
      seq := .busy (f :: fs) 1 ret
      rx := s.rx.tail
      xfers := s.xfers + 1
      bus := s.bus ++ [.assert, .xfer (f.byte 0) (s.answer 0)] } := by
  simp [State.transfer, h, State.csAssert, State.record, State.xfer, State.answer]

theorem State.transfer_second {s : State} {f : Frame} {fs : List Frame} {ret : Return} (h : s.seq = .busy (f :: fs) 1 ret) :
    s.transfer = { s with
      seq := .busy (f :: fs) 2 ret
      rx := s.rx.tail
      xfers := s.xfers + 1
      bus := s.bus ++ [.xfer (f.byte 1) (s.answer 0)] } := by
  simp [State.transfer, h, State.xfer]

theorem State.transfer_third {s : State} {f : Frame} {fs : List Frame} {ret : Return} (h : s.seq = .busy (f :: fs) 2 ret) :
    s.transfer = { s with
      seq := if fs = [] then .idle else .busy fs 0 ret
      response := if fs = [] then some (ret.respond (s.answer 0)) else s.response
      rx := s.rx.tail
      xfers := s.xfers + 1
      bus := s.bus ++ [.xfer (f.byte 2) (s.answer 0), .release] } := by
  cases fs <;> simp [State.transfer, h, State.csRelease, State.record, State.xfer, State.dropFrame, State.complete]

/-- Three ticks from a frame's start are the whole frame (R25, R75). -/
theorem ticks_frame {s : State} {f : Frame} {fs : List Frame} {ret : Return} (h : s.seq = .busy (f :: fs) 0 ret) :
    ticks 3 s = s.runFrame f := by
  rw [State.runFrame_busy h]
  change ticks 2 (tick s) = _
  rw [tick_busy h, State.transfer_first h]
  change ticks 1 (tick _) = _
  rw [tick_busy rfl, State.transfer_second rfl]
  change ticks 0 (tick _) = _
  rw [tick_busy rfl, State.transfer_third rfl]
  simp [ticks, State.answer, Frame.events, ← List.drop_one]

/-- The ticks of a busy machine from a frame's start are the frames still pending (R25). -/
theorem ticks_frames (fs : List Frame) (f : Frame) (s : State) {ret : Return} (h : s.seq = .busy (f :: fs) 0 ret) :
    ticks (3 * (fs.length + 1)) s = s.runFrames (f :: fs) := by
  induction fs generalizing f s with
  | nil => exact ticks_frame h
  | cons g fs ih =>
    rw [show 3 * ((g :: fs).length + 1) = 3 + 3 * (fs.length + 1) by simp; omega, ticks_add, ticks_frame h,
      State.runFrames]
    exact ih g _ (by simp [State.runFrame_busy h])

/-- Until its last transfer a busy machine stays busy. -/
theorem ticks_busy (fs : List Frame) (f : Frame) (s : State) {ret : Return} (h : s.seq = .busy (f :: fs) 0 ret)
    (m : Nat) (hm : m < 3 * (fs.length + 1)) : (ticks m s).seq ≠ .idle := by
  induction fs generalizing f s m with
  | nil =>
    match m, hm with
    | 0, _ => simp [ticks, h]
    | 1, _ => simp [ticks, tick_busy h, State.transfer_first h]
    | 2, _ =>
      change (ticks 1 (tick s)).seq ≠ .idle
      rw [tick_busy h, State.transfer_first h]
      change (ticks 0 (tick _)).seq ≠ .idle
      rw [tick_busy rfl, State.transfer_second rfl]
      simp [ticks]
  | cons g fs ih =>
    match m with
    | 0 => simp [ticks, h]
    | 1 => simp [ticks, tick_busy h, State.transfer_first h]
    | 2 =>
      change (ticks 1 (tick s)).seq ≠ .idle
      rw [tick_busy h, State.transfer_first h]
      change (ticks 0 (tick _)).seq ≠ .idle
      rw [tick_busy rfl, State.transfer_second rfl]
      simp [ticks]
    | m + 3 =>
      rw [Nat.add_comm, ticks_add, ticks_frame h]
      exact ih g _ (by simp [State.runFrame_busy h]) m (by simp at hm; omega)

end Sys2Proof.Machine
end

