-- ==== Sys2Proof/Laws/Commands.lean ====
section
/-! SUPPORT. What a command decides (its job) in closed form, and one inversion lemma per machine: everything a step and a tick
can do. -/

namespace Sys2Proof.Machine

/-- The job of an instruction; a frame is no command. -/
def jobOf (i : Instr) (s : State) : Job :=
  match i with
  | .pinmodeInput p => pinmodeInputJob p s
  | .pinmodeOutput p => pinmodeOutputJob p s
  | .pinmodeInputPullup p => pinmodeInputPullupJob p s
  | .dwrite p v => dwriteJob p v s
  | .dread p => dreadJob p s
  | .spiWrite _ _ _ => s.newJob
  | .spiRead _ _ _ => s.newJob

/-- A command is its job, performed (R88 to R94). -/
theorem exec_command {p : Nat} {v : PinLatchValue} {i : Instr} (h : i ∈ commandsOn p v) (s : State) :
    exec i s = command p (jobOf i s) s := by
  simp only [commandsOn, List.mem_cons, List.not_mem_nil, or_false] at h
  rcases h with rfl | rfl | rfl | rfl | rfl <;> rfl

/-- The transfer-level machine admits the same job. -/
theorem issue_command {p : Nat} {v : PinLatchValue} {i : Instr} (h : i ∈ commandsOn p v) (hp : p < 16) (s : State) :
    issue i s = s.start (jobOf i s) := by
  simp only [commandsOn, List.mem_cons, List.not_mem_nil, or_false] at h
  rcases h with rfl | rfl | rfl | rfl | rfl <;> simp [issue, State.acceptCommand, hp, jobOf]

/-! ### The jobs -/

/-- R89, in terms of the pin's direction bit. -/
theorem pinmodeOutputJob_eq (p : Nat) (s : State) :
    pinmodeOutputJob p s =
      if s.isInput p then s.newJob.write s.hw (iodir (port p)) (s.get (iodir (port p)) &&& ~~~bitMask p)
      else s.newJob := by
  simp only [pinmodeOutputJob, State.dirty_clear, ← State.isInput_eq]

/-- R90. -/
theorem pinmodeInputJob_eq (p : Nat) (s : State) :
    pinmodeInputJob p s =
      (if s.isInput p then s.newJob
        else s.newJob.write s.hw (iodir (port p)) (s.get (iodir (port p)) ||| bitMask p)).write s.hw (gppu (port p))
        (s.get (gppu (port p)) &&& ~~~bitMask p) := by
  simp only [pinmodeInputJob, State.dirty_set, ← State.isInput_eq]
  cases s.isInput p <;> rfl

/-- R91. -/
theorem pinmodeInputPullupJob_eq (p : Nat) (s : State) :
    pinmodeInputPullupJob p s =
      (if s.isInput p then s.newJob
        else s.newJob.write s.hw (iodir (port p)) (s.get (iodir (port p)) ||| bitMask p)).write s.hw (gppu (port p))
        (s.get (gppu (port p)) ||| bitMask p) := by
  simp only [pinmodeInputPullupJob, State.dirty_set, ← State.isInput_eq]
  cases s.isInput p <;> rfl

/-- R93, the dirty-check as a comparison of the pin's latch bit with the value. -/
theorem dwriteJob_eq (p : Nat) (v : PinLatchValue) (s : State) :
    dwriteJob p v s =
      if s.isInput p = false ∧ pinBit (s.get (gpio (port p))) p ≠ decide (v = .high) then
        s.newJob.write s.hw (gpio (port p)) (latchCandidate v (bitMask p) (s.get (gpio (port p))))
      else s.newJob := by
  simp only [dwriteJob, State.dirty_latch]
  cases s.isInput p <;> simp

/-- R94. -/
theorem dreadJob_eq (p : Nat) (s : State) :
    dreadJob p s =
      if s.isInput p then s.newJob.read s.hw (gpio (port p)) (bitMask p)
      else { s.newJob with ret := .level .low } := by
  by_cases h : s.isInput p = true <;> simp [dreadJob, State.isOutput, h]

/-! ### Everything a step can do -/

/-- A step that answers a next state does one of these. -/
theorem step_cases {s t : State} (h : step s = .next t) :
    (s.seq = .idle ∧ s.cmds = [] ∧ t = s) ∨
    (s.seq = .idle ∧ ∃ w ws, s.cmds = w :: ws ∧ reservedWord w = true ∧
      t = s.takeCommand.refuse .reservedCommandWord) ∨
    (s.seq = .idle ∧ ∃ w ws i p v, s.cmds = w :: ws ∧ decodeCommand w = .ok i ∧ p < 16 ∧ i ∈ commandsOn p v ∧
      t = s.takeCommand.perform (jobOf i s.takeCommand)) ∨
    (∃ k ret, s.seq = .busy [] k ret ∧ t = s.complete ret 0#8) ∨
    (∃ f fs ret, s.seq = .busy (f :: fs) 0 ret ∧ f.addr.toNat < 22 ∧ t = s.runFrame f) ∨
    (∃ f fs ret, s.seq = .busy (f :: fs) 0 ret ∧ 22 ≤ f.addr.toNat ∧ t = s.refuse .registerOutOfRange) ∨
    (∃ f fs ret, s.seq = .busy (f :: fs) 1 ret ∧ t = s.transfer.transfer) ∨
    (∃ f fs ret, s.seq = .busy (f :: fs) 2 ret ∧ t = s.transfer) := by
  match hs : s.seq with
  | .idle =>
    match hc : s.cmds with
    | [] =>
      simp only [step, hs, hc, Host.Outcome.next.injEq] at h
      exact .inl ⟨rfl, rfl, h.symm⟩
    | w :: ws =>
      match hd : decodeCommand w with
      | .ok i =>
        simp only [step, hs, hc, hd] at h
        obtain ⟨p, hp, v, hi⟩ := decodeCommand_ok hd
        rw [exec_command hi, command_idle (by simpa using hs), if_pos hp, Host.Outcome.next.injEq] at h
        exact .inr (.inr (.inl ⟨rfl, w, ws, i, p, v, rfl, hd, hp, hi, h.symm⟩))
      | .rejected e =>
        simp only [step, hs, hc, hd, Host.Outcome.next.injEq] at h
        obtain rfl := decodeCommand_rejected hd
        exact .inr (.inl ⟨rfl, w, ws, rfl, (decodeCommand_rejected_iff w).1 hd, h.symm⟩)
  | .busy [] k ret =>
    simp only [step, hs, Host.Outcome.next.injEq] at h
    refine .inr (.inr (.inr (.inl ⟨k, ret, rfl, ?_⟩)))
    rw [← h, State.transfer]
    simp [hs]
  | .busy (f :: fs) 0 ret =>
    simp only [step, hs] at h
    rw [exec_instr, frame_eq_next] at h
    obtain ⟨-, rfl⟩ := h
    by_cases ha : f.addr.toNat < 22
    · exact .inr (.inr (.inr (.inr (.inl ⟨f, fs, ret, rfl, ha, if_pos ha⟩))))
    · exact .inr (.inr (.inr (.inr (.inr (.inl ⟨f, fs, ret, rfl, by omega, if_neg ha⟩)))))
  | .busy (f :: fs) 1 ret =>
    simp only [step, hs, Host.Outcome.next.injEq] at h
    exact .inr (.inr (.inr (.inr (.inr (.inr (.inl ⟨f, fs, ret, rfl, h.symm⟩))))))
  | .busy (f :: fs) 2 ret =>
    simp only [step, hs, Host.Outcome.next.injEq] at h
    exact .inr (.inr (.inr (.inr (.inr (.inr (.inr ⟨f, fs, ret, rfl, h.symm⟩))))))

/-- Everything a tick can do: on an idle machine the command's acceptance instead of its whole performance, on a busy one a
transfer. -/
theorem tick_cases (s : State) :
    (s.seq = .idle ∧ s.cmds = [] ∧ tick s = s) ∨
    (s.seq = .idle ∧ ∃ w ws, s.cmds = w :: ws ∧ reservedWord w = true ∧
      tick s = s.takeCommand.refuse .reservedCommandWord) ∨
    (s.seq = .idle ∧ ∃ w ws i p v, s.cmds = w :: ws ∧ decodeCommand w = .ok i ∧ p < 16 ∧ i ∈ commandsOn p v ∧
      tick s = s.takeCommand.start (jobOf i s.takeCommand)) ∨
    ((∃ fs k ret, s.seq = .busy fs k ret) ∧ tick s = s.transfer) := by
  match hs : s.seq with
  | .idle =>
    match hc : s.cmds with
    | [] => exact .inl ⟨rfl, rfl, by simp [tick, hs, hc]⟩
    | w :: ws =>
      match hd : decodeCommand w with
      | .ok i =>
        obtain ⟨p, hp, v, hi⟩ := decodeCommand_ok hd
        exact .inr (.inr (.inl ⟨rfl, w, ws, i, p, v, rfl, hd, hp, hi, by
          simp only [tick, hs, hc, hd, issue_command hi hp]⟩))
      | .rejected e =>
        obtain rfl := decodeCommand_rejected hd
        exact .inr (.inl ⟨rfl, w, ws, rfl, (decodeCommand_rejected_iff w).1 hd, by simp only [tick, hs, hc, hd]⟩)
  | .busy fs k ret => exact .inr (.inr (.inr ⟨⟨fs, k, ret, rfl⟩, tick_busy hs⟩))

/-- Everything a transfer can do (R25). -/
theorem State.transfer_cases (s : State) :
    (s.seq = .idle ∧ s.transfer = s) ∨
    (∃ k ret, s.seq = .busy [] k ret ∧ s.transfer = s.complete ret 0#8) ∨
    (∃ f fs ret, s.seq = .busy (f :: fs) 0 ret ∧ s.transfer = { s with
      seq := .busy (f :: fs) 1 ret
      rx := s.rx.tail
      xfers := s.xfers + 1
      bus := s.bus ++ [.assert, .xfer (f.byte 0) (s.answer 0)] }) ∨
    (∃ f fs ret, s.seq = .busy (f :: fs) 1 ret ∧ s.transfer = { s with
      seq := .busy (f :: fs) 2 ret
      rx := s.rx.tail
      xfers := s.xfers + 1
      bus := s.bus ++ [.xfer (f.byte 1) (s.answer 0)] }) ∨
    (∃ f fs ret, s.seq = .busy (f :: fs) 2 ret ∧ s.transfer = { s with
      seq := if fs = [] then .idle else .busy fs 0 ret
      response := if fs = [] then some (ret.respond (s.answer 0)) else s.response
      rx := s.rx.tail
      xfers := s.xfers + 1
      bus := s.bus ++ [.xfer (f.byte 2) (s.answer 0), .release] }) := by
  match hs : s.seq with
  | .idle => exact .inl ⟨rfl, by simp [State.transfer, hs]⟩
  | .busy [] k ret => exact .inr (.inl ⟨k, ret, rfl, by rw [State.transfer]; simp [hs]⟩)
  | .busy (f :: fs) 0 ret => exact .inr (.inr (.inl ⟨f, fs, ret, rfl, State.transfer_first hs⟩))
  | .busy (f :: fs) 1 ret => exact .inr (.inr (.inr (.inl ⟨f, fs, ret, rfl, State.transfer_second hs⟩)))
  | .busy (f :: fs) 2 ret => exact .inr (.inr (.inr (.inr ⟨f, fs, ret, rfl, State.transfer_third hs⟩)))

end Sys2Proof.Machine
end

