-- ==== Sys2Proof/Laws/Device.lean ====
section
/-! SUPPORT. The device replay (R49): it ignores the answers, a frame is one register write at most, and the writes of a list of
frames are applied in order. -/

namespace Sys2Proof.Machine

theorem Device.after_append (d : Device) (a b : List Event) : d.after (a ++ b) = (d.after a).after b :=
  List.foldl_append

/-- The device sees only what the block sends. -/
theorem Device.after_sent (d : Device) {a b : List Event} (h : a.map Event.sent = b.map Event.sent) :
    d.after a = d.after b := by
  have key : ∀ (es : List Event) (d : Device), d.after es = d.after (es.map Event.sent) := by
    intro es
    induction es with
    | nil => intro d; rfl
    | cons e es ih =>
      intro d
      have he : d.observe e = d.observe e.sent := by cases e <;> rfl
      rw [List.map_cons, Device.after, List.foldl_cons, he]
      exact ih _
  rw [key a, key b, h]

/-- What a frame makes of a device's registers. -/
def Frame.applyTo (f : Frame) (addr : HwAddr) (c : Cache) : Cache :=
  match f.dir with
  | .write => if f.hw = addr then c.setIfInBounds f.addr.toNat f.data else c
  | .read => c

/-- The device after one whole frame. -/
theorem Device.after_frame (d : Device) (f : Frame) (ans : Nat → Byte) :
    d.after (f.events ans) = { d with regs := f.applyTo d.addr d.regs, selected := none } := by
  have : (decode .spi24 [f.byte 0, f.byte 1, f.byte 2]).instr? = some f.instr := by rw [f.decode_bytes]; rfl
  obtain ⟨hw, dir, addr, data⟩ := f
  simp only [Device.after, Frame.events, List.foldl, Device.observe, Option.map, List.nil_append, List.cons_append,
    Option.getD_some, Device.accept, this]
  cases dir <;> rfl

/-- The device after a list of whole frames. -/
theorem Device.after_frames (fs : List Frame) (d : Device) (ans : Nat → Byte) :
    (d.after (eventsOf fs ans)).regs = fs.foldl (fun c f => f.applyTo d.addr c) d.regs ∧
      (d.after (eventsOf fs ans)).addr = d.addr := by
  induction fs generalizing d ans with
  | nil => exact ⟨rfl, rfl⟩
  | cons f fs ih =>
    rw [eventsOf_cons, Device.after_append, Device.after_frame]
    exact ih _ _

theorem Device.after_addr (d : Device) (es : List Event) : (d.after es).addr = d.addr := by
  induction es generalizing d with
  | nil => rfl
  | cons e es ih =>
    rw [Device.after, List.foldl_cons]
    exact (ih _).trans (by cases e <;> rfl)

/-- P2 at work: what other agents send can be struck from what the device hears. -/
theorem Device.after_events {d : Device} {tr : Traffic} (h : d.NoOtherWriter tr) :
    d.after (heard tr) = d.after (heardFromEngine tr) := by
  induction tr generalizing d with
  | nil => rfl
  | cons x tr ih =>
    obtain ⟨_ | _, es⟩ := x
    · exact (d.after_append es _).trans ((ih h).trans (d.after_append es _).symm)
    · exact (d.after_append es _).trans ((congrArg (·.after (heard tr)) h.1).trans (ih h.2))

/-- P2 allows traffic: a whole frame of another agent that reads, or is for another device, leaves a device that is not
selected as it was. -/
theorem Device.after_foreign {d : Device} {f : Frame} (ans : Nat → Byte) (hs : d.selected = none)
    (hf : f.dir = .read ∨ f.hw ≠ d.addr) : d.after (f.events ans) = d := by
  obtain ⟨addr, regs, selected⟩ := d
  obtain ⟨hw, dir, a, v⟩ := f
  rw [Device.after_frame]
  cases dir <;> simp_all [Frame.applyTo]

/-- Coherence, with P2 and P3 used: a device that has heard exactly the engine. -/
theorem coherent_iff {s : State} :
    Coherent s ↔ ∀ d : Device, d.PowerOnDefaults → d.AnswersTo s.hw → (d.after (s.bus ++ s.seq.pending)).regs = s.cache := by
  refine ⟨fun h d h1 h4 => ?_, fun h d tr h1 h2 h3 h4 => ?_⟩
  · simpa [heard] using
      h d [(.engine, s.bus ++ s.seq.pending)] h1 trivial (by simp [FramesArriveIntact, heardFromEngine]) h4
  · rw [Device.after_events h2, Device.after_sent d h3, h d h1 h4]

/-- A write frame of the block's own to a register is the cache's write (R76). -/
theorem writeFrame_applyTo (hw : HwAddr) (r : ControlRegister) (v : Byte) (c : Cache) :
    (writeFrame hw (addressOf r) v).applyTo hw c = cacheSet c r v := by
  simp [Frame.applyTo, writeFrame, setIfInBounds_addressOf]

@[simp] theorem readFrame_applyTo (hw addr : HwAddr) (a : Byte) (c : Cache) : (readFrame hw a).applyTo addr c = c := rfl

/-- Every command's cache is what its frames make of the cache before: each change is paired with a write of the same byte
(R76, R103). -/
theorem jobOf_coherent (i : Instr) (s : State) :
    (jobOf i s).frames.foldl (fun c f => f.applyTo s.hw c) s.cache = (jobOf i s).cache := by
  cases i <;>
    simp only [jobOf, pinmodeInputJob_eq, pinmodeOutputJob_eq, pinmodeInputPullupJob_eq, dwriteJob_eq, dreadJob_eq] <;>
    repeat (first | split | simp [writeFrame_applyTo])

/-- The events sent for a list of frames do not depend on the answers. -/
theorem eventsOf_sent (fs : List Frame) (a b : Nat → Byte) :
    (eventsOf fs a).map Event.sent = (eventsOf fs b).map Event.sent := by
  induction fs generalizing a b with
  | nil => rfl
  | cons f fs ih =>
    simp only [eventsOf_cons, List.map_append]
    rw [ih _ fun k => b (k + 3)]
    rfl

end Sys2Proof.Machine
end

