-- ==== Sys2Proof/Laws/Frames.lean ====
section
/-! SUPPORT. What each shared operation leaves alone, and what a command's job leaves alone, bit by bit. -/

namespace Sys2Proof.Machine

/-! ### The fields after a performed, an accepted and a transferred command -/

section Perform
variable (j : Job) (s : State)
@[simp] theorem State.perform_hw : (s.perform j).hw = s.hw := by rw [State.perform_eq]
@[simp] theorem State.perform_cache : (s.perform j).cache = j.cache := by rw [State.perform_eq]
@[simp] theorem State.perform_seq : (s.perform j).seq = .idle := by rw [State.perform_eq]
@[simp] theorem State.perform_refusal : (s.perform j).refusal = s.refusal := by rw [State.perform_eq]
@[simp] theorem State.perform_cmds : (s.perform j).cmds = s.cmds := by rw [State.perform_eq]
@[simp] theorem State.perform_bus : (s.perform j).bus = s.bus ++ eventsOf j.frames s.answer := by
  rw [State.perform_eq]
@[simp] theorem State.perform_get (r : ControlRegister) : (s.perform j).get r = cacheGet j.cache r := by
  rw [State.perform_eq]; rfl
end Perform

section Start
variable (j : Job) (s : State)
@[simp] theorem State.start_hw : (s.start j).hw = s.hw := by unfold State.start; split <;> rfl
@[simp] theorem State.start_cache : (s.start j).cache = j.cache := by unfold State.start; split <;> rfl
@[simp] theorem State.start_refusal : (s.start j).refusal = s.refusal := by unfold State.start; split <;> rfl
@[simp] theorem State.start_cmds : (s.start j).cmds = s.cmds := by unfold State.start; split <;> rfl
@[simp] theorem State.start_bus : (s.start j).bus = s.bus := by unfold State.start; split <;> rfl
end Start

/-- A transfer changes no cache entry, address, mark or command, and only appends to the bus record. -/
theorem State.transfer_frame (s : State) :
    s.transfer.hw = s.hw ∧ s.transfer.cache = s.cache ∧ s.transfer.refusal = s.refusal ∧ s.transfer.cmds = s.cmds ∧
      s.bus <+: s.transfer.bus := by
  rcases s.transfer_cases with ⟨-, h⟩ | ⟨_, _, -, h⟩ | ⟨_, _, _, -, h⟩ | ⟨_, _, _, -, h⟩ | ⟨_, _, _, -, h⟩ <;>
    rw [h] <;> simp

/-- A frame changes no cache entry, address, mark or command, and only appends to the bus record. -/
theorem State.runFrame_frame (f : Frame) (s : State) :
    (s.runFrame f).hw = s.hw ∧ (s.runFrame f).cache = s.cache ∧ (s.runFrame f).refusal = s.refusal ∧
      (s.runFrame f).cmds = s.cmds ∧ s.bus <+: (s.runFrame f).bus := by
  simp only [State.runFrame, State.dropFrame, State.sendFrame_eq]
  split <;> simp [State.complete]

/-- A relation between states that every shared operation keeps, and that chains, is kept by every step and every tick: the
induction of the whole-machine rules, once. -/
theorem step_tick_rel {P : State → State → Prop} (refl : ∀ s, P s s) (trans : ∀ {a b c}, P a b → P b c → P a c)
    (take : ∀ s, P s s.takeCommand) (refuse : ∀ s w, P s (s.refuse w))
    (perform : ∀ i s, P s (s.perform (jobOf i s))) (start : ∀ i s, P s (s.start (jobOf i s)))
    (complete : ∀ s ret, P s (s.complete ret 0#8)) (runFrame : ∀ f s, P s (s.runFrame f))
    (transfer : ∀ s, P s s.transfer) (s : State) : (∀ t, step s = .next t → P s t) ∧ P s (tick s) := by
  refine ⟨fun t h => ?_, ?_⟩
  · rcases step_cases h with ⟨-, -, rfl⟩ | ⟨-, _, _, -, -, rfl⟩ | ⟨-, _, _, _, _, _, -, -, -, -, rfl⟩ | ⟨_, _, -, rfl⟩ |
      ⟨_, _, _, -, -, rfl⟩ | ⟨_, _, _, -, -, rfl⟩ | ⟨_, _, _, -, rfl⟩ | ⟨_, _, _, -, rfl⟩
    · exact refl _
    · exact trans (take s) (refuse _ _)
    · exact trans (take s) (perform _ _)
    · exact complete _ _
    · exact runFrame _ _
    · exact refuse _ _
    · exact trans (transfer s) (transfer _)
    · exact transfer s
  · rcases tick_cases s with ⟨-, -, h⟩ | ⟨-, _, _, -, -, h⟩ | ⟨-, _, _, _, _, _, -, -, -, -, h⟩ | ⟨-, h⟩ <;> rw [h]
    · exact refl _
    · exact trans (take s) (refuse _ _)
    · exact trans (take s) (start _ _)
    · exact transfer s

/-! ### What a job leaves alone -/

/-- A job depends on the address and the cache only (R81, R103). -/
theorem jobOf_congr (i : Instr) {s s' : State} (h : s'.hw = s.hw) (h' : s'.cache = s.cache) : jobOf i s' = jobOf i s := by
  obtain ⟨hw, c, _, _, _, _, _, _, _⟩ := s
  obtain ⟨hw', c', _, _, _, _, _, _, _⟩ := s'
  obtain rfl : hw' = hw := h
  obtain rfl : c' = c := h'
  cases i <;> rfl

/-- A write that keeps a bit of its own register keeps that bit of every register. -/
theorem getLsbD_cacheSet {c : Cache} {q r : ControlRegister} {x y : Byte} {b : Nat}
    (h : (cacheGet c r).getLsbD b = y.getLsbD b) (h' : r = q → x.getLsbD b = y.getLsbD b) :
    (cacheGet (cacheSet c q x) r).getLsbD b = y.getLsbD b := by
  rw [cacheGet_cacheSet]
  split
  · next e => exact h' e
  · exact h

theorem getLsbD_latchCandidate (v : PinLatchValue) (x : Byte) {p b : Nat} (hb : b ≠ bit p) :
    (latchCandidate v (bitMask p) x).getLsbD b = x.getLsbD b := by
  cases v
  · exact getLsbD_and_not_bitMask x hb
  · exact getLsbD_or_bitMask x hb

/-- A command on pin `p` changes at most the bit of `p` in any entry (R97). -/
theorem jobOf_other_bits {i : Instr} {p : Nat} {v : PinLatchValue} (hi : i ∈ commandsOn p v) (s : State)
    (r : ControlRegister) {b : Nat} (hb : b ≠ bit p) :
    (cacheGet (jobOf i s).cache r).getLsbD b = (s.get r).getLsbD b := by
  simp only [commandsOn, List.mem_cons, List.not_mem_nil, or_false] at hi
  rcases hi with rfl | rfl | rfl | rfl | rfl
  · simp only [jobOf, pinmodeInputJob_eq]
    refine getLsbD_cacheSet ?_ fun e => by rw [getLsbD_and_not_bitMask _ hb, e]
    split
    · rfl
    · exact getLsbD_cacheSet rfl fun e => by rw [getLsbD_or_bitMask _ hb, e]
  · simp only [jobOf, pinmodeOutputJob_eq]
    split
    · exact getLsbD_cacheSet rfl fun e => by rw [getLsbD_and_not_bitMask _ hb, e]
    · rfl
  · simp only [jobOf, pinmodeInputPullupJob_eq]
    refine getLsbD_cacheSet ?_ fun e => by rw [getLsbD_or_bitMask _ hb, e]
    split
    · rfl
    · exact getLsbD_cacheSet rfl fun e => by rw [getLsbD_or_bitMask _ hb, e]
  · simp only [jobOf, dwriteJob_eq]
    split
    · exact getLsbD_cacheSet rfl fun e => by rw [getLsbD_latchCandidate _ _ hb, e]
    · rfl
  · simp only [jobOf, dreadJob_eq]
    split <;> rfl

/-- A command changes only the three registers of its pin's port (R97). -/
theorem jobOf_other_registers {i : Instr} {p : Nat} {v : PinLatchValue} (hi : i ∈ commandsOn p v) (s : State)
    {r : ControlRegister} (h1 : r ≠ iodir (port p)) (h2 : r ≠ gppu (port p)) (h3 : r ≠ gpio (port p)) :
    cacheGet (jobOf i s).cache r = s.get r := by
  simp only [commandsOn, List.mem_cons, List.not_mem_nil, or_false] at hi
  rcases hi with rfl | rfl | rfl | rfl | rfl <;>
    simp only [jobOf, pinmodeInputJob_eq, pinmodeOutputJob_eq, pinmodeInputPullupJob_eq, dwriteJob_eq, dreadJob_eq] <;>
    split <;> simp [cacheGet_cacheSet, h1, h2, h3, State.get]

/-- A command on one of the 16 pins answers its performed job, exactly when the block is idle. -/
theorem exec_command_eq_next {i : Instr} {p : Nat} {v : PinLatchValue} (hi : i ∈ commandsOn p v) (hp : p < 16)
    {s t : State} : exec i s = .next t ↔ s.seq = .idle ∧ t = s.perform (jobOf i s) := by
  rw [exec_command hi, command_eq_next, if_pos hp]

end Sys2Proof.Machine
end

