-- ==== Sys2Proof/Laws/PerInstr.lean ====
section
/-! SUPPORT. Statements made per instruction. Family TableRow: an instruction's encoded word meets the match and the mask of
its row of spec/opcode_table.json, and has its row's length. -/

namespace Sys2Proof.Laws

/-- The row of spec/opcode_table.json an instruction is: bits, match, mask (section 3 of spec/30_encoding.md). -/
def TableRow.row : Instr → Nat × Nat × Nat
  | .pinmodeInput _ => (8, 0x00, 0xF0)
  | .pinmodeOutput _ => (8, 0x10, 0xF0)
  | .pinmodeInputPullup _ => (8, 0x20, 0xF0)
  | .dwrite _ _ => (8, 0x40, 0xE0)
  | .dread _ => (8, 0x80, 0xF0)
  | .spiWrite _ _ _ => (24, 0x400000, 0xF10000)
  | .spiRead _ _ _ => (24, 0x410000, 0xF10000)

/-- The word of some bytes, the first byte highest (R55). -/
def TableRow.word (bytes : List Byte) : Nat := bytes.foldl (fun n b => n * 256 + b.toNat) 0

/-- The encoding of `i` has its row's length and its row's fixed bits. For a pin of 16 or more this is about the model's choice
of log entry 29. -/
def TableRow.Statement (i : Instr) : Prop :=
  8 * (encode i).length = (row i).1 ∧ TableRow.word (encode i) &&& (row i).2.2 = (row i).2.1

theorem TableRow.command (op arg : BitVec 2) (p : Nat) :
    TableRow.word [commandWord op arg p] &&& 0xF0 = op.toNat * 64 + arg.toNat * 16 := by
  have key : ∀ (op arg : BitVec 2) (q : BitVec 4), (op ++ arg ++ q).toNat &&& 0xF0 = op.toNat * 64 + arg.toNat * 16 := by
    decide
  simpa [TableRow.word, commandWord] using key op arg (BitVec.ofNat 4 p)

theorem TableRow.pinmodeInput (p : Nat) : TableRow.Statement (.pinmodeInput p) := ⟨rfl, TableRow.command _ _ p⟩

theorem TableRow.pinmodeOutput (p : Nat) : TableRow.Statement (.pinmodeOutput p) := ⟨rfl, TableRow.command _ _ p⟩

theorem TableRow.pinmodeInputPullup (p : Nat) : TableRow.Statement (.pinmodeInputPullup p) :=
  ⟨rfl, TableRow.command _ _ p⟩

theorem TableRow.dwrite (p : Nat) (v : PinLatchValue) : TableRow.Statement (.dwrite p v) := by
  refine ⟨rfl, ?_⟩
  have h := congrArg (· &&& 0xE0) (TableRow.command 0b01#2 (valueArg v) p)
  simp only [Nat.and_assoc] at h
  exact h.trans (by cases v <;> rfl)

theorem TableRow.dread (p : Nat) : TableRow.Statement (.dread p) := ⟨rfl, TableRow.command _ _ p⟩

/-- The fixed bits of a three-byte word lie in its first byte. -/
theorem TableRow.frame (b0 b1 b2 : Byte) :
    TableRow.word [b0, b1, b2] &&& 0xF10000 = (b0.toNat &&& 0xF1) * 65536 := by
  have h : (TableRow.word [b0, b1, b2]) = b0.toNat <<< 16 + (b1.toNat * 256 + b2.toNat) := by
    simp [TableRow.word, Nat.shiftLeft_eq]
    omega
  have hlt : b1.toNat * 256 + b2.toNat < 2 ^ 16 := by
    have := b1.isLt
    have := b2.isLt
    omega
  rw [h, Nat.shiftLeft_add_eq_or_of_lt hlt, Nat.and_or_distrib_right,
    show (0xF10000 : Nat) = 0xF1 <<< 16 by rfl, ← Nat.shiftLeft_and_distrib, Nat.shiftLeft_eq]
  have : (b1.toNat * 256 + b2.toNat) &&& 0xF1 <<< 16 = 0 := by
    apply Nat.eq_of_testBit_eq
    intro k
    simp only [Nat.testBit_and, Nat.testBit_shiftLeft, Nat.zero_testBit]
    by_cases hk : k ≥ 16
    · rw [Nat.testBit_lt_two_pow (Nat.lt_of_lt_of_le hlt (Nat.pow_le_pow_right (by decide) hk))]
      rfl
    · simp [hk]
  rw [this]
  simp

theorem TableRow.spiWrite (a : HwAddr) (r d : Byte) : TableRow.Statement (.spiWrite a r d) := by
  refine ⟨rfl, (TableRow.frame _ r d).trans ?_⟩
  change _ = 0x400000
  revert a
  decide

theorem TableRow.spiRead (a : HwAddr) (r f : Byte) : TableRow.Statement (.spiRead a r f) := by
  refine ⟨rfl, (TableRow.frame _ r f).trans ?_⟩
  change _ = 0x410000
  revert a
  decide

end Sys2Proof.Laws
end

