-- ==== Sys2Proof/Laws/Traffic.lean ====
section
/-! SUPPORT. Legal traffic (R42, R64, R82): the check ignores the answers and splits at whole frames, and every job's frames
are legal. And what a transfer and a frame make of the events sent and due. -/

namespace Sys2Proof.Machine

/-- A whole frame in front of a record. -/
theorem legalBus_frame (hw : HwAddr) (f : Frame) (ans : Nat → Byte) (es : List Event) :
    legalBus hw (f.events ans ++ es) = (f.legal hw && legalBus hw es) := by
  simp [Frame.events, legalBus]

/-- The check does not look at the answers. -/
theorem legalBus_map_sent (hw : HwAddr) (a : List Event) : legalBus hw (a.map Event.sent) = legalBus hw a := by
  induction a using legalBus.induct with
  | case1 => rfl
  | case2 b0 _ b1 _ b2 _ es ih => simp [legalBus, Event.sent, ih]
  | case3 t h1 h2 =>
    have hn : legalBus hw t = false := by
      rw [legalBus.eq_def]
      split
      · simp at h1
      · exact absurd rfl (h2 _ _ _ _ _ _ _)
      · rfl
    rw [hn, legalBus.eq_def]
    split
    · next h => exact absurd (List.map_eq_nil_iff.1 h) h1
    · next h =>
      exfalso
      match t, h with
      | .assert :: .xfer _ _ :: .xfer _ _ :: .xfer _ _ :: .release :: _, _ => exact h2 _ _ _ _ _ _ _ rfl
    · rfl

theorem legalBus_sent (hw : HwAddr) {a b : List Event} (h : a.map Event.sent = b.map Event.sent) :
    legalBus hw a = legalBus hw b := by
  rw [← legalBus_map_sent hw a, h, legalBus_map_sent]

/-- A legal record in front of another. -/
theorem legalBus_append (hw : HwAddr) {a : List Event} (b : List Event) (h : legalBus hw a = true) :
    legalBus hw (a ++ b) = legalBus hw b := by
  induction a using legalBus.induct with
  | case1 => rfl
  | case2 b0 _ b1 _ b2 _ es ih =>
    simp only [legalBus, Bool.and_eq_true] at h
    simp only [List.cons_append, legalBus, ih h.2, h.1, Bool.true_and]
  | case3 t h1 h2 =>
    rw [legalBus.eq_def] at h
    split at h
    · simp at h1
    · exact absurd rfl (h2 _ _ _ _ _ _ _)
    · simp at h

theorem legalBus_eventsOf (hw : HwAddr) (fs : List Frame) (ans : Nat → Byte) (h : fs.all (·.legal hw) = true) :
    legalBus hw (eventsOf fs ans) = true := by
  induction fs generalizing ans with
  | nil => rfl
  | cons f fs ih =>
    simp only [List.all_cons, Bool.and_eq_true] at h
    rw [eventsOf_cons, legalBus_frame, h.1, ih _ h.2]
    rfl

theorem writeFrame_legal (hw : HwAddr) {r : ControlRegister} (v : Byte) (hr : r ∈ busRegisters) :
    (writeFrame hw (addressOf r) v).legal hw = true := by
  simp only [writeFrame, Frame.legal, beq_self_eq_true, Bool.true_and]
  revert r
  decide

theorem readFrame_legal (hw : HwAddr) {r : ControlRegister} (hr : r ∈ latchRegisters) :
    (readFrame hw (addressOf r)).legal hw = true := by
  simp only [readFrame, Frame.legal, beq_self_eq_true, Bool.true_and]
  revert r
  decide

theorem iodir_mem_busRegisters (x : Port) : iodir x ∈ busRegisters := by cases x <;> decide
theorem gppu_mem_busRegisters (x : Port) : gppu x ∈ busRegisters := by cases x <;> decide
theorem gpio_mem_busRegisters (x : Port) : gpio x ∈ busRegisters := by cases x <;> decide
theorem gpio_mem_latchRegisters (x : Port) : gpio x ∈ latchRegisters := by cases x <;> decide

/-- A job emits nothing, or leads the sequencer to a legal state. -/
theorem jobOf_legal (i : Instr) (s : State) :
    (jobOf i s).frames = [] ∨ (Seq.busy (jobOf i s).frames 0 (jobOf i s).ret).legal s.hw = true := by
  cases i <;>
    simp only [jobOf, pinmodeInputJob_eq, pinmodeOutputJob_eq, pinmodeInputPullupJob_eq, dwriteJob_eq, dreadJob_eq] <;>
    (try split) <;>
    simp [Seq.legal, writeFrame_legal, readFrame_legal, iodir_mem_busRegisters, gppu_mem_busRegisters,
      gpio_mem_busRegisters, gpio_mem_latchRegisters] <;>
    simp [writeFrame, readFrame]

theorem jobOf_frames_legal (i : Instr) (s : State) : (jobOf i s).frames.all (·.legal s.hw) = true := by
  rcases jobOf_legal i s with h | h
  · rw [h]; rfl
  · simp only [Seq.legal, Bool.and_eq_true] at h
    exact h.1.2

/-- Dropping a frame of a legal sequencer state with more frames due leaves a legal one. -/
theorem Seq.legal_tail {hw : HwAddr} {f g : Frame} {fs : List Frame} {k k' : Fin 3} {ret : Return}
    (h : (Seq.busy (f :: g :: fs) k ret).legal hw = true) : (Seq.busy (g :: fs) k' ret).legal hw = true := by
  cases ret <;> simp_all [Seq.legal]

/-! ### Sent and due -/

/-- A transfer moves one transfer from what is due to what is sent. -/
theorem State.transfer_sent {s : State} (hb : s.seq ≠ .idle) :
    (s.transfer.bus ++ s.transfer.seq.pending).map Event.sent = (s.bus ++ s.seq.pending).map Event.sent := by
  rcases s.transfer_cases with ⟨h, -⟩ | ⟨_, _, hs, h⟩ | ⟨f, fs, _, hs, h⟩ | ⟨f, fs, _, hs, h⟩ | ⟨f, fs, _, hs, h⟩
  · exact absurd h hb
  all_goals rw [h, hs]
  · simp [Seq.pending]
  · simp [Seq.pending, Frame.events, Event.sent]
  · simp [Seq.pending, Frame.events, Event.sent]
  · cases fs <;> simp [Seq.pending, Frame.events, Event.sent]

/-- Running the current frame moves it from what is due to what is sent. -/
theorem State.runFrame_sent {s : State} {f : Frame} {fs : List Frame} {ret : Return} (hs : s.seq = .busy (f :: fs) 0 ret) :
    ((s.runFrame f).bus ++ (s.runFrame f).seq.pending).map Event.sent = (s.bus ++ s.seq.pending).map Event.sent := by
  rw [State.runFrame_busy hs, hs]
  cases fs <;> simp [Seq.pending, Frame.events, Event.sent]

/-- A performed command has sent its frames; an accepted one has them due. -/
theorem State.perform_sent (j : Job) (s : State) :
    ((s.perform j).bus ++ (s.perform j).seq.pending).map Event.sent =
      (s.bus ++ eventsOf j.frames s.answer).map Event.sent := by
  simp [Seq.pending]

theorem State.start_sent (j : Job) (s : State) :
    ((s.start j).bus ++ (s.start j).seq.pending).map Event.sent =
      (s.bus ++ eventsOf j.frames fun _ => 0#8).map Event.sent := by
  unfold State.start
  split <;> simp_all [Seq.pending]

end Sys2Proof.Machine
end

