-- ==== Sys2Proof/Tests/Slice0.lean ====
section
/-! SUPPORT. The model's own tests. Expected results are the spec's: the encodings of spec/30_encoding.md and the vectors of
spec/95_test_vectors.md, named in each comment. Then one witness per statement that has hypotheses. -/

namespace Sys2Proof.Tests

open Sys2Proof.Machine

/-! ### Helpers -/

/-- An idle instance with the given cache bytes on port A and port B and the transport's answers. -/
def engine (hw : HwAddr) (iodira gppua gpioa : Byte) (rx : List Byte := [])
    (iodirb : Byte := 0xFF) (gppub gpiob : Byte := 0x00) : State :=
  let c := cacheSet (cacheSet (cacheSet resetCache .iodira iodira) .gppua gppua) .gpioa gpioa
  let c := cacheSet (cacheSet (cacheSet c .iodirb iodirb) .gppub gppub) .gpiob gpiob
  { State.resetWith hw with cache := c, rx := rx }

/-- The next state of an outcome, if there is one. -/
def next? : Host.Outcome State Fault Refusal → Option State
  | .next t => some t
  | .fault _ => none
  | .refused _ => none

/-- What is on the wire: the events with their answers forgotten. -/
def wire (o : Host.Outcome State Fault Refusal) : Option (List Event) := (next? o).map (·.bus.map Event.sent)

/-- A frame on the wire, as the vectors write it: `[b0 b1 b2]` in one chip-select bracket. -/
def fr (b0 b1 b2 : Byte) : List Event := [.assert, .xfer b0 0, .xfer b1 0, .xfer b2 0, .release]

/-- The register bytes after an outcome. -/
def regs (o : Host.Outcome State Fault Refusal) (rs : List ControlRegister) : Option (List Byte) :=
  (next? o).map fun t => rs.map t.get

/-- The response after an outcome. -/
def resp (o : Host.Outcome State Fault Refusal) : Option Response := (next? o).bind (·.response)

/-! ### WellFormed refuses each ill-formed operand (R87, R70) -/

theorem test_wellFormed_refuses_pin_16 :
    Instr.wellFormed (.pinmodeInput 16) = false ∧ Instr.wellFormed (.pinmodeOutput 16) = false ∧
      Instr.wellFormed (.pinmodeInputPullup 16) = false ∧ Instr.wellFormed (.dwrite 16 .high) = false ∧
      Instr.wellFormed (.dread 16) = false := by decide

theorem test_wellFormed_refuses_register_22 :
    Instr.wellFormed (.spiWrite 0 0x16 0) = false ∧ Instr.wellFormed (.spiRead 0 0x16 0x16) = false := by decide

theorem test_wellFormed_accepts_the_last_pin_and_register :
    WellFormed (.dread 15) ∧ WellFormed (.spiRead 7 0x15 0x15) := by decide

/-! ### Decoding: words written out bit by bit from R52 to R54 and R57 to R60 -/

theorem test_decode_pinmodeInput : decode .cmd8 [0b00001011#8] = .ok (.pinmodeInput 11) := by decide
theorem test_decode_pinmodeOutput : decode .cmd8 [0b00010101#8] = .ok (.pinmodeOutput 5) := by decide
theorem test_decode_pinmodeInputPullup : decode .cmd8 [0b00101100#8] = .ok (.pinmodeInputPullup 12) := by decide
theorem test_decode_dwrite_low : decode .cmd8 [0b01000101#8] = .ok (.dwrite 5 .low) := by decide
theorem test_decode_dwrite_high : decode .cmd8 [0b01011111#8] = .ok (.dwrite 15 .high) := by decide
theorem test_decode_dread : decode .cmd8 [0b10001111#8] = .ok (.dread 15) := by decide
/-- FR2: `[46 13 5A]`, hardware address 3 (opcode 0100 011 0). -/
theorem test_decode_spiWrite : decode .spi24 [0b01000110#8, 0x13, 0x5A] = .ok (.spiWrite 3 0x13 0x5A) := by decide
/-- FR4: `[4F 13 13]`, hardware address 7 (opcode 0100 111 1). -/
theorem test_decode_spiRead : decode .spi24 [0b01001111#8, 0x13, 0x13] = .ok (.spiRead 7 0x13 0x13) := by decide
/-- CW4, CW7, CW9, CW10. -/
theorem test_decode_reserved :
    [0x35#8, 0x65#8, 0x95#8, 0xC0#8].map (fun w => decode .cmd8 [w]) =
      List.replicate 4 (.rejected .reservedCommandWord) := by decide
theorem test_decode_no_frame_and_wrong_length :
    decode .spi24 [0x50, 0x13, 0x13] = .rejected .notAFrame ∧ decode .spi24 [0x40, 0x13] = .rejected .wrongLength ∧
      decode .cmd8 [] = .rejected .wrongLength := by decide

/-! ### Routing and opcode (vectors 2.1, 2.2) -/

/-- RT3, RT4, RT5: pins 7, 8 and 11. -/
theorem test_routing :
    (bitMask 7, addressOf (iodir (port 7)), addressOf (gppu (port 7)), addressOf (gpio (port 7))) =
        (0x80#8, 0x00#8, 0x0C#8, 0x12#8) ∧
      (bitMask 8, addressOf (iodir (port 8)), addressOf (gppu (port 8)), addressOf (gpio (port 8))) =
        (0x01#8, 0x01#8, 0x0D#8, 0x13#8) ∧ bitMask 11 = 0x08#8 := by decide
/-- R16: the registers of a function stand in pairs, port A at the even address and port B at the odd one after it. -/
theorem test_portOf (r : ControlRegister) : portOf r = .A ↔ (regAddr r).val % 2 = 0 := by cases r <;> decide
theorem test_opcode : opcode 5 .write = 0x4A ∧ opcode 7 .read = 0x4F := by decide

/-! ### The commands -/

/-- PM7: the pull-up is kept. -/
theorem test_pinmodeOutput_keeps_pullup :
    wire (exec (.pinmodeOutput 5) (engine 0 0xFF 0x20 0x00)) = some (fr 0x40 0x00 0xDF) ∧
      regs (exec (.pinmodeOutput 5) (engine 0 0xFF 0x20 0x00)) [.iodira, .gppua] = some [0xDF, 0x20] := by decide
/-- PM11: port B, hardware address 7. -/
theorem test_pinmodeOutput_port_b :
    wire (exec (.pinmodeOutput 15) (engine 7 0xFF 0x00 0x00)) = some (fr 0x4E 0x01 0x7F) := by decide
/-- PM8: two frames, direction first. -/
theorem test_pinmodeInput_two_frames :
    wire (exec (.pinmodeInput 5) (engine 0 0xDF 0x20 0x00)) = some (fr 0x40 0x00 0xFF ++ fr 0x40 0x0C 0x00) ∧
      regs (exec (.pinmodeInput 5) (engine 0 0xDF 0x20 0x00)) [.iodira, .gppua] = some [0xFF, 0x00] := by decide
/-- PM3: the pull-up frame is unconditional. -/
theorem test_pinmodeInput_unconditional :
    wire (exec (.pinmodeInput 5) (engine 0 0xFF 0x00 0x00)) = some (fr 0x40 0x0C 0x00) := by decide
/-- PM10: isolation. -/
theorem test_pinmodeInputPullup_isolation :
    wire (exec (.pinmodeInputPullup 2) (engine 0 0x5A 0x81 0x00)) = some (fr 0x40 0x00 0x5E ++ fr 0x40 0x0C 0x85) ∧
      regs (exec (.pinmodeInputPullup 2) (engine 0 0x5A 0x81 0x00)) [.iodira, .gppua] = some [0x5E, 0x85] := by decide
/-- PM5: unchanged, still sent. -/
theorem test_pinmodeInputPullup_resent :
    wire (exec (.pinmodeInputPullup 5) (engine 0 0xFF 0x20 0x00)) = some (fr 0x40 0x0C 0x20) := by decide
/-- DW8 and DW1: the whole byte is sent as cached; an input pin's write is discarded. -/
theorem test_dwrite_whole_byte :
    wire (exec (.dwrite 5 .high) (engine 0 0xDF 0x00 0x0F)) = some (fr 0x40 0x12 0x2F) ∧
      wire (exec (.dwrite 5 .high) (engine 0 0xFF 0x00 0x00)) = some [] := by decide
/-- DW4 and DW6: LOW clears; the dirty-check. -/
theorem test_dwrite_low_and_dirty_check :
    wire (exec (.dwrite 5 .low) (engine 0 0xDF 0x00 0x20)) = some (fr 0x40 0x12 0x00) ∧
      wire (exec (.dwrite 5 .high) (engine 0 0x00 0x00 0xA5)) = some [] := by decide
/-- DR5 and DR4: the third byte only; port B. -/
theorem test_dread_third_byte :
    resp (exec (.dread 3) (engine 0 0xFF 0x00 0x00 [0xFF, 0x08, 0x00])) = some (.value .low) ∧
      resp (exec (.dread 11) (engine 0 0xFF 0x00 0x00 [0x00, 0x00, 0xCA])) = some (.value .high) ∧
      wire (exec (.dread 11) (engine 0 0xFF 0x00 0x00 [0x00, 0x00, 0xCA])) = some (fr 0x41 0x13 0x13) := by decide
/-- DR9: an output pin reads LOW with no frame, even if last written HIGH. -/
theorem test_dread_output_pin :
    resp (exec (.dread 3) (engine 0 0xF7 0x00 0x08)) = some (.value .low) ∧
      wire (exec (.dread 3) (engine 0 0xF7 0x00 0x08)) = some [] := by decide

/-! ### The frames -/

/-- A state in the middle of a digitalRead of pin 3: its read frame is the current one. -/
def reading (rx : List Byte) : State :=
  { engine 3 0xFF 0x00 0x00 rx with seq := .busy [readFrame 3 0x12] 0 (.sampled (bitMask 3)) }

/-- FR2. -/
theorem test_spiWrite : wire (exec (.spiWrite 3 0x13 0x5A) (engine 3 0xFF 0 0)) = some (fr 0x46 0x13 0x5A) := by decide
/-- FR3: rx1 is ignored; 0x9C has bit 3 set, 0x33 has not. -/
theorem test_spiRead :
    wire (exec (.spiRead 3 0x12 0x12) (reading [0x00, 0x33, 0x9C])) = some (fr 0x47 0x12 0x12) ∧
      resp (exec (.spiRead 3 0x12 0x12) (reading [0x00, 0x33, 0x9C])) = some (.value .high) := by decide

/-! ### Stepping from reset -/

/-- Every row of the opcode table, placed after reset, runs at the very next step. -/
theorem test_step_runs_every_row :
    ([(8, 0x00), (8, 0x10), (8, 0x20), (8, 0x40), (8, 0x80), (24, 0x400000), (24, 0x410000)].map fun (n, w) =>
        ((next? (step (State.reset.withFetchWord n w))).map (·.bus.length))) =
      [some 5, some 5, some 5, some 0, some 5, some 5, some 5] := by decide

/-- A reserved word leaves state and bus as they were and sets the mark (section 2.7). -/
theorem test_step_reserved_word :
    (next? (step ((engine 0 0xDF 0x20 0x20).withFetchWord 8 0x35))) =
      some { engine 0 0xDF 0x20 0x20 with refusal := some .reservedCommandWord } := by decide

/-- The idle block with no command waits. -/
theorem test_step_waits : next? (step (engine 0 0xFF 0 0)) = some (engine 0 0xFF 0 0) := by decide

/-! ### Witnesses: concrete inputs that meet the hypotheses of each statement, clause by clause -/

/-- An idle block, pins at both ends of both ports: DecodeOfEncode, the five command statements, ModeGatedGuards,
PullUpFrameIsUnconditional, PinModeReadsBack, PullUpIsRetainedOnOutput, PinRouting. -/
theorem witness_idle_and_pins :
    (State.resetWith 6).seq = .idle ∧ ∀ p ∈ [0, 7, 8, 15], p < 16 ∧ WellFormed (.dread p) := by decide

theorem witness_EncodeOfDecodeIsTheBytes :
    decode .cmd8 [0x5F] = .ok (.dwrite 15 .high) ∧ decode .spi24 [0x4F, 0x13, 0x13] = .ok (.spiRead 7 0x13 0x13) ∧
      decodeCommand 0x8F = .ok (.dread 15) := by decide

theorem witness_ReservedCommandWordsAreRefused :
    ∃ s : State, s.seq = .idle ∧ s.cmds = [0x30, 0x10] ∧ ∀ w ∈ [0x30#8, 0x3F#8, 0x60#8, 0x7F#8, 0x90#8, 0xBF#8, 0xC0#8, 0xFF#8],
      reservedWord w = true ∧ reservedWord 0x2F = false :=
  ⟨{ State.resetWith 0 with cmds := [0x30, 0x10] }, by decide⟩

theorem witness_ResetSeedsTheCache : ControlRegister.olatb ≠ .iodira ∧ ControlRegister.olatb ≠ .iodirb := by decide

theorem witness_StepRunsTheDecodedInstruction :
    (∃ s : State, s.seq = .idle ∧ s.cmds = [0x15] ∧ decode .cmd8 [0x15] = .ok (.pinmodeOutput 5)) ∧
      (∃ s : State, s.seq = .busy [writeFrame 0 0x00 0xDF, writeFrame 0 0x0C 0x00] 0 .void) :=
  ⟨⟨{ State.resetWith 0 with cmds := [0x15] }, by decide⟩,
    ⟨{ State.resetWith 0 with seq := .busy [writeFrame 0 0x00 0xDF, writeFrame 0 0x0C 0x00] 0 .void }, rfl⟩⟩

theorem witness_StepRunsTheFetchWord :
    decodeTableWord 8 0x15 = some (.pinmodeOutput 5) ∧ decodeTableWord 24 0x410000 = some (.spiRead 0 0 0) := by decide

theorem witness_IdleBlockWaitsForACommand : (State.resetWith 0).seq = .idle ∧ (State.resetWith 0).cmds = [] := by decide

theorem witness_EveryStepCompletes : (State.resetWith 0).seq = .idle ∧ (reading []).seq.legal 3 = true := by decide

/-- The last register the frames take, and all three sequencer states. -/
theorem witness_FrameStatements :
    (0x15#8).toNat < 22 ∧ (State.resetWith 0).seq = .idle ∧ (reading []).seq = .busy [readFrame 3 0x12] 0 (.sampled 0x08) ∧
      ∃ s : State, s.seq = .busy [writeFrame 0 0x00 0xDF, writeFrame 0 0x0C 0x00] 0 .void :=
  ⟨by decide, by decide, by decide,
    { State.resetWith 0 with seq := .busy [writeFrame 0 0x00 0xDF, writeFrame 0 0x0C 0x00] 0 .void }, rfl⟩

theorem witness_FrameRegisterOutOfRangeIsRefused :
    22 ≤ (0x16#8).toNat ∧ (State.resetWith 0).seq = .idle ∧ ∃ fs ret, (reading []).seq = .busy fs 0 ret :=
  ⟨by decide, by decide, _, _, rfl⟩

theorem witness_OverlappingCommandsHaveNoMove :
    Instr.dread 15 ∈ commandsOn 15 .low ∧ (∃ fs ret, (reading []).seq = .busy fs 0 ret) ∧
      ∀ k : Fin 3, k ≠ 0 → ∃ s : State, s.seq = .busy [readFrame 3 0x12] k (.sampled 0x08) :=
  ⟨by decide, ⟨_, _, rfl⟩, fun k _ => ⟨{ reading [] with seq := .busy [readFrame 3 0x12] k (.sampled 0x08) }, rfl⟩⟩

/-- The branches of the command statements: an input and an output pin, a latch bit that differs and one that does not. -/
theorem witness_CommandBranches :
    (engine 0 0xFF 0 0).isInput 7 = true ∧ (engine 0 0x7F 0 0).isInput 7 = false ∧ (engine 0 0x7F 0 0).isOutput 7 = true ∧
      pinBit ((engine 0 0x7F 0 0).get (gpio (port 7))) 7 ≠ decide (PinLatchValue.high = .high) ∧
      pinBit ((engine 0 0x7F 0 0x80).get (gpio (port 7))) 7 = decide (PinLatchValue.high = .high) := by decide

theorem witness_CommandsLeaveTheRestAlone :
    (next? (exec (.dwrite 7 .high) (engine 0 0x7F 0 0))).isSome = true ∧ Instr.dwrite 7 .high ∈ commandsOn 7 .high ∧
      Instr.dread 7 ∈ commandsOn 7 .high ∧ (next? (exec (.dread 7) (engine 0 0x7F 0 0))).isSome = true := by decide

theorem witness_PinOutOfRangeIsRefused :
    (State.resetWith 0).seq = .idle ∧ 16 ≤ 16 ∧ Instr.dread 16 ∈ commandsOn 16 .low := by decide

theorem witness_RefusalMarkStays :
    ∃ s : State, s.refusal = some .reservedCommandWord ∧ (next? (step s)).isSome = true :=
  ⟨{ State.resetWith 0 with refusal := some .reservedCommandWord, cmds := [0x15] }, by decide⟩

theorem witness_OtherPinsKeepTheirBits :
    (next? (exec (.pinmodeInputPullup 2) (engine 0 0x5A 0x81 0))).isSome = true ∧
      Instr.pinmodeInputPullup 2 ∈ writingCommandsOn 2 .low ∧ 7 ≠ bit 2 ∧ portOf .ipolb ≠ port 2 ∧ port 8 ≠ port 2 := by decide

theorem witness_ReadDependsOnTheThirdByteOnly :
    (engine 0 0xFF 0 0 [0, 0, 0xCA]).isInput 3 = true ∧ (engine 0 0x08 0 0 [1, 2, 0x08]).isInput 3 = true ∧
      pinBit ((engine 0 0xFF 0 0 [0, 0, 0xCA]).answer 2) 3 = pinBit ((engine 0 0x08 0 0 [1, 2, 0x08]).answer 2) 3 ∧
      (engine 0 0xFF 0 0 [0, 0, 0xCA]).answer 2 = 0xCA ∧ bit 11 = 3 ∧ bit 8 = 0 ∧ (engine 0 0xF7 0 0).isOutput 3 = true := by
  decide

theorem witness_ValidStreamsRunSafely :
    ∃ s : State, s.seq = .idle ∧ Clean s ∧ s.cmds = [0x10, 0x50, 0x80] ∧ ∀ w ∈ s.cmds, reservedWord w = false :=
  ⟨{ State.resetWith 0 with cmds := [0x10, 0x50, 0x80] }, rfl, rfl, rfl, by decide⟩

theorem witness_SentBytesIgnoreReceivedBytes :
    (reading [1, 2, 3]).hw = (reading []).hw ∧ (reading [1, 2, 3]).cache = (reading []).cache ∧
      (reading [1, 2, 3]).seq = (reading []).seq ∧ (reading [1, 2, 3]).cmds = (reading []).cmds ∧
      (next? (step (reading []))).isSome = true := by decide

/-- Coherence is not empty: a device at its power-on defaults answers to the address, and a mid-frame state is coherent and
legal. -/
theorem witness_Coherent :
    (∃ d : Device, d.PowerOnDefaults ∧ d.AnswersTo 3) ∧ Coherent (reading []) ∧ LegalTraffic (reading []) := by
  refine ⟨⟨⟨3, resetCache, none⟩, rfl, rfl⟩, coherent_iff.2 ?_, by decide, by decide⟩
  rintro ⟨addr, regs, sel⟩ h1 h2
  obtain rfl : regs = resetCache := h1
  obtain rfl : addr = 3#3 := h2
  cases sel <;> rfl

/-- The four premises of coherence are met together, by a device that also hears another agent: a write for another device
before the engine's frame. -/
theorem witness_CoherencePremises :
    ∃ (d : Device) (tr : Traffic), d.PowerOnDefaults ∧ d.NoOtherWriter tr ∧ FramesArriveIntact (reading []) tr ∧
      d.AnswersTo (reading []).hw ∧ (tr.map (·.1)) = [.other, .engine] :=
  ⟨⟨3, resetCache, none⟩,
    [(.other, (writeFrame 5 0x12 0xFF).events fun _ => 0), (.engine, (readFrame 3 0x12).events fun _ => 0x5A)],
    rfl, ⟨by decide, trivial⟩, rfl, rfl, rfl⟩

/-- P2 is no empty word: a write by another agent to the device breaks it. -/
theorem witness_NoOtherWriter_excludes_a_write :
    ¬ (Device.mk 3 resetCache none).NoOtherWriter [(.other, (writeFrame 3 0x12 0xFF).events fun _ => 0)] :=
  fun h => absurd h.1 (by decide)

/-- The whole-machine rules (HardwareAddressIsImmutable, NeverWrittenEntriesKeepTheirValue, BusRecordOnlyGrows): steps that
answer a next state from an idle, a commanded and a mid-frame state, and an entry of the list. -/
theorem witness_WholeMachineRules :
    (next? (step (State.resetWith 0))).isSome = true ∧
      (next? (step { State.resetWith 0 with cmds := [0x15] })).isSome = true ∧
      (next? (step { reading [] with seq := .busy [readFrame 3 0x12] 2 (.sampled 0x08) })).isSome = true ∧
      ControlRegister.olatb ∈ neverWritten := by decide

theorem witness_AtomicAndTransferLevelAgree :
    ∃ s : State, s.seq = .idle ∧ s.cmds ≠ [] ∧ (next? (step s)).map (·.xfers) = some 6 :=
  ⟨{ engine 0 0xDF 0x20 0 with cmds := [0x05] }, by decide⟩

theorem witness_FrameStepIsItsTransfers :
    (readFrame 3 0x12).addr.toNat < 22 ∧ ∀ k : Fin 3, ∃ s : State, s.seq = .busy [readFrame 3 0x12] k (.sampled 0x08) :=
  ⟨by decide, fun k => ⟨{ reading [] with seq := .busy [readFrame 3 0x12] k (.sampled 0x08) }, rfl⟩⟩

end Sys2Proof.Tests
end

section
/-! The state family (spec/10_state.md). Facts about a pin's mode, the never-written entries, and the two descriptions of the
sequencer, each followed by the obligations it settles. -/

namespace Sys2Proof.Machine

/-! ### The address map (R16, R69) -/

theorem addressOf_injective {r q : ControlRegister} (h : addressOf r = addressOf q) : r = q :=
  regAddr_injective (Fin.ext (by rw [← addressOf_toNat, ← addressOf_toNat, h]))

theorem addressOf_le (r : ControlRegister) : addressOf r ≤ 0x15#8 := by
  have hlt : (regAddr r).val < 22 := (regAddr r).isLt
  rw [BitVec.le_def, addressOf_toNat]
  exact Nat.le_of_lt_succ hlt

/-- Settles O12: the accessors' own laws, the address map's, and R16's table read off entry by entry. -/
theorem cacheReadAfterWrite : Obligations.CacheReadAfterWrite := by
  refine ⟨cacheGet_cacheSet, fun _ _ => cache_ext, fun _ _ => addressOf_injective,
    fun r => ⟨addressOf_toNat r, addressOf_le r⟩, ?_⟩
  decide

/-! ### A pin's mode (R23) -/

/-- The mode is read off two bits: the pin's direction bit, then its pull-up bit (R23). -/
theorem State.modeOf_eq (s : State) (p : Nat) :
    s.modeOf p =
      if pinBit (s.get (iodir (port p))) p then
        if pinBit (s.get (gppu (port p))) p then .inputPullup else .input
      else .output := by
  simp only [State.modeOf, State.isOutput_eq, and_bitMask_ne_zero]
  cases pinBit (s.get (iodir (port p))) p <;> rfl

/-- Two states with the same direction and pull-up bit of a pin show it in the same mode. -/
theorem State.modeOf_congr {s t : State} {p : Nat}
    (hdir : pinBit (t.get (iodir (port p))) p = pinBit (s.get (iodir (port p))) p)
    (hpull : pinBit (t.get (gppu (port p))) p = pinBit (s.get (gppu (port p))) p) : t.modeOf p = s.modeOf p := by
  rw [State.modeOf_eq, State.modeOf_eq, hdir, hpull]

/-- A register of another port is none of the three of this port. -/
theorem ne_of_portOf_ne {r : ControlRegister} {x : Port} (h : portOf r ≠ x) : r ≠ iodir x ∧ r ≠ gppu x ∧ r ≠ gpio x := by
  refine ⟨?_, ?_, ?_⟩ <;> rintro rfl <;> simp at h

/-- A command on pin `p` leaves another pin's bit alone in the registers of that pin's port: either the two pins differ in
their bit, or the register is of the other port (R97). -/
theorem jobOf_other_pin {i : Instr} {p q : Nat} {v : PinLatchValue} (hi : i ∈ commandsOn p v) (hp : p < 16) (hq : q < 16)
    (hqp : q ≠ p) (s : State) {r : ControlRegister} (hr : portOf r = port q) :
    pinBit (cacheGet (jobOf i s).cache r) q = pinBit (s.get r) q := by
  by_cases hb : bit q = bit p
  · have hport : port q ≠ port p := fun h => hqp (pin_ext hq hp h hb)
    obtain ⟨hdir, hpull, hlatch⟩ := ne_of_portOf_ne (hr ▸ hport)
    rw [jobOf_other_registers hi s hdir hpull hlatch]
  · exact jobOf_other_bits hi s r hb

theorem pinModeInstr_mem_commandsOn (p : Nat) (mode : PinMode) : pinModeInstr p mode ∈ commandsOn p .low := by
  cases mode <;> simp [pinModeInstr, commandsOn]

/-- After any pinMode the pin's cached direction bit is set exactly when the mode is an input mode (R88). -/
theorem pinModeInstr_direction_bit (p : Nat) (mode : PinMode) (s : State) :
    pinBit (cacheGet (jobOf (pinModeInstr p mode) s).cache (iodir (port p))) p = decide (mode ≠ .output) := by
  have hne := iodir_ne_gppu (port p) (port p)
  have hin := s.isInput_eq p
  cases mode with
  | output =>
    simp only [pinModeInstr, jobOf, pinmodeOutputJob_eq]
    split <;> simp_all [pinBit_and_not, State.get]
  | input =>
    simp only [pinModeInstr, jobOf, pinmodeInputJob_eq, Job.write_cache, cacheGet_cacheSet_ne _ _ hne]
    split <;> simp_all [pinBit_or, State.get]
  | inputPullup =>
    simp only [pinModeInstr, jobOf, pinmodeInputPullupJob_eq, Job.write_cache, cacheGet_cacheSet_ne _ _ hne]
    split <;> simp_all [pinBit_or, State.get]

/-- After pinMode to an input mode the pin's cached pull-up bit is set exactly when the mode is INPUT_PULLUP (R90, R91). -/
theorem pinModeInstr_pullup_bit (p : Nat) {mode : PinMode} (hmode : mode ≠ .output) (s : State) :
    pinBit (cacheGet (jobOf (pinModeInstr p mode) s).cache (gppu (port p))) p = decide (mode = .inputPullup) := by
  cases mode with
  | output => exact absurd rfl hmode
  | input => simp [pinModeInstr, jobOf, pinmodeInputJob_eq, pinBit_and_not]
  | inputPullup => simp [pinModeInstr, jobOf, pinmodeInputPullupJob_eq, pinBit_or]

/-- The mode a performed pinMode leaves its pin in. -/
theorem State.modeOf_perform_pinMode (p : Nat) (mode : PinMode) (s : State) :
    (s.perform (jobOf (pinModeInstr p mode) s)).modeOf p = mode := by
  rw [State.modeOf_eq, State.perform_get, State.perform_get, pinModeInstr_direction_bit]
  cases mode with
  | output => rfl
  | input => rw [pinModeInstr_pullup_bit p (by decide)]; rfl
  | inputPullup => rw [pinModeInstr_pullup_bit p (by decide)]; rfl

/-- Settles O32: the pin's own two bits give its mode back, and every other pin keeps its two bits. -/
theorem pinModeReadsBack : Obligations.PinModeReadsBack := by
  intro s p mode hs hp
  have hi := pinModeInstr_mem_commandsOn p mode
  refine ⟨_, (exec_command_eq_next hi hp).2 ⟨hs, rfl⟩, State.modeOf_perform_pinMode p mode s, fun q hq hqp => ?_⟩
  apply State.modeOf_congr
  · rw [State.perform_get, jobOf_other_pin hi hp hq hqp s (portOf_iodir _)]
  · rw [State.perform_get, jobOf_other_pin hi hp hq hqp s (portOf_gppu _)]

/-! ### Reset (R30, R119 to R122) -/

theorem State.resetWith_get_iodir (hw : HwAddr) (x : Port) : (State.resetWith hw).get (iodir x) = BitVec.allOnes 8 := by
  cases x <;> rfl

theorem State.resetWith_get_gppu (hw : HwAddr) (x : Port) : (State.resetWith hw).get (gppu x) = 0#8 := by
  cases x <;> rfl

/-- Right after reset every pin is an input without pull-up, from the seeds of R120. -/
theorem State.resetWith_modeOf (hw : HwAddr) (p : Nat) : (State.resetWith hw).modeOf p = .input := by
  have hdir : pinBit (BitVec.allOnes 8) p = true := BitVec.getLsbD_allOnes.trans (decide_eq_true (bit_lt p))
  have hpull : pinBit 0#8 p = false := BitVec.getLsbD_zero
  rw [State.modeOf_eq, State.resetWith_get_iodir, State.resetWith_get_gppu, hdir, hpull]
  rfl

/-- Settles O6: the fields as construction sets them, and the pin modes from the cache seeds. -/
theorem resetIsIdleAndSilent : Obligations.ResetIsIdleAndSilent := by
  refine ⟨?_, Config.hwAddr, rfl⟩
  rintro hw _ rfl
  exact ⟨rfl, rfl, rfl, rfl, rfl, rfl, rfl, rfl, fun p _ => State.resetWith_modeOf hw p⟩

/-! ### What no step changes (R19, R24) -/

/-- Settles O34: no shared operation touches `HW`. -/
theorem hardwareAddressIsImmutable : Obligations.HardwareAddressIsImmutable :=
  step_tick_rel (P := fun a b => b.hw = a.hw) (refl := fun _ => rfl) (trans := fun hab hbc => hbc.trans hab)
    (take := State.takeCommand_hw) (refuse := State.refuse_hw) (perform := fun _ s => State.perform_hw _ s)
    (start := fun _ s => State.start_hw _ s) (complete := fun s ret => s.complete_hw ret 0#8)
    (runFrame := fun f s => (s.runFrame_frame f).1) (transfer := fun s => s.transfer_frame.1)

/-- Every instruction is a host command on some pin, or a frame's. -/
theorem mem_commandsOn_or_frame (i : Instr) : (∃ p v, i ∈ commandsOn p v) ∨ ∃ f : Frame, i = f.instr := by
  cases i with
  | pinmodeInput p => exact .inl ⟨p, .low, by simp [commandsOn]⟩
  | pinmodeOutput p => exact .inl ⟨p, .low, by simp [commandsOn]⟩
  | pinmodeInputPullup p => exact .inl ⟨p, .low, by simp [commandsOn]⟩
  | dwrite p v => exact .inl ⟨p, v, by simp [commandsOn]⟩
  | dread p => exact .inl ⟨p, .low, by simp [commandsOn]⟩
  | spiWrite a r d => exact .inr ⟨⟨a, .write, r, d⟩, rfl⟩
  | spiRead a r f => exact .inr ⟨⟨a, .read, r, f⟩, rfl⟩

/-- A frame's instruction decides nothing of its own: the cache is the caller's to update (R76). -/
theorem jobOf_instr (f : Frame) (s : State) : jobOf f.instr s = s.newJob := by
  obtain ⟨hw, dir, addr, data⟩ := f
  cases dir <;> rfl

/-- The entries R19 names are none of the registers a command writes. -/
theorem neverWritten_ne {r : ControlRegister} (hr : r ∈ neverWritten) (x : Port) :
    r ≠ iodir x ∧ r ≠ gppu x ∧ r ≠ gpio x := by
  cases x <;> revert r <;> decide

/-- No instruction's job writes an entry of R19's list. -/
theorem jobOf_neverWritten {r : ControlRegister} (hr : r ∈ neverWritten) (i : Instr) (s : State) :
    cacheGet (jobOf i s).cache r = s.get r := by
  rcases mem_commandsOn_or_frame i with ⟨p, v, hi⟩ | ⟨f, rfl⟩
  · obtain ⟨hdir, hpull, hlatch⟩ := neverWritten_ne hr (port p)
    exact jobOf_other_registers hi s hdir hpull hlatch
  · rw [jobOf_instr]
    rfl

theorem State.get_congr {s t : State} (h : t.cache = s.cache) (r : ControlRegister) : t.get r = s.get r := by
  rw [State.get, State.get, h]

/-- Settles O35: only a command's job changes the cache, and no job writes an entry of R19's list. -/
theorem neverWrittenEntriesKeepTheirValue : Obligations.NeverWrittenEntriesKeepTheirValue := by
  intro s r hr
  refine step_tick_rel (P := fun a b => b.get r = a.get r) (refl := fun _ => rfl) (trans := fun hab hbc => hbc.trans hab)
    (take := fun _ => rfl) (refuse := fun _ _ => rfl) (perform := fun i s => ?_) (start := fun i s => ?_)
    (complete := fun _ _ => rfl) (runFrame := fun f s => ?_) (transfer := fun s => ?_) s
  · rw [State.perform_get, jobOf_neverWritten hr]
  · rw [State.get, State.start_cache, jobOf_neverWritten hr]
  · obtain ⟨-, hcache, -⟩ := s.runFrame_frame f
    exact State.get_congr hcache r
  · obtain ⟨-, hcache, -⟩ := s.transfer_frame
    exact State.get_congr hcache r

/-! ### The step and the transfers of a command (R25, D1) -/

theorem State.takeCommand_eq {s : State} {w : Byte} {ws : List Byte} (h : s.cmds = w :: ws) :
    s.takeCommand = { s with cmds := ws } := by
  rw [State.takeCommand, h, List.tail_cons]

theorem step_idle_command {s : State} {w : Byte} {ws : List Byte} {i : Instr} (hs : s.seq = .idle)
    (hc : s.cmds = w :: ws) (hd : decodeCommand w = .ok i) : step s = exec i s.takeCommand := by
  simp only [step, hs, hc, hd]

theorem step_frame_start {s : State} {f : Frame} {fs : List Frame} {ret : Return} (hs : s.seq = .busy (f :: fs) 0 ret) :
    step s = exec f.instr s := by
  simp only [step, hs]

/-- Settles O7: the command word off the host's stream, and the current frame by its own three bytes. -/
theorem stepRunsTheDecodedInstruction : Obligations.StepRunsTheDecodedInstruction := by
  refine ⟨fun s w ws i hs hc hd => ?_, fun s f fs ret hs => ⟨f.decode_bytes, step_frame_start hs⟩⟩
  rw [step_idle_command hs hc hd, State.takeCommand_eq hc]

theorem tick_idle_reserved {s : State} {w : Byte} {ws : List Byte} (hs : s.seq = .idle) (hc : s.cmds = w :: ws)
    (hw : reservedWord w = true) : tick s = s.takeCommand.refuse .reservedCommandWord := by
  simp only [tick, hs, hc, (decodeCommand_rejected_iff w).2 hw]

theorem tick_idle_command {s : State} {w : Byte} {ws : List Byte} {i : Instr} {p : Nat} {v : PinLatchValue}
    (hs : s.seq = .idle) (hc : s.cmds = w :: ws) (hd : decodeCommand w = .ok i) (hi : i ∈ commandsOn p v) (hp : p < 16) :
    tick s = s.takeCommand.start (jobOf i s.takeCommand) := by
  simp only [tick, hs, hc, hd, issue_command hi hp]

/-- An accepted command with frames to emit is busy at the start of its first. -/
theorem State.start_seq {j : Job} {f : Frame} {fs : List Frame} (h : j.frames = f :: fs) (s : State) :
    (s.start j).seq = .busy (f :: fs) 0 j.ret := by
  simp only [State.start, h]

/-- An accepted command, three ticks per frame later, is the command performed (R25). -/
theorem ticks_start (j : Job) (s : State) : ticks (3 * j.frames.length) (s.start j) = s.perform j := by
  rw [State.perform]
  match hj : j.frames with
  | [] => rfl
  | f :: fs => exact ticks_frames fs f _ (State.start_seq hj s)

/-- Until its last transfer an accepted command is in progress (R25). -/
theorem ticks_start_busy (j : Job) (s : State) {m : Nat} (hm : m < 3 * j.frames.length) :
    (ticks m (s.start j)).seq ≠ .idle := by
  match hj : j.frames with
  | [] => simp [hj] at hm
  | f :: fs => exact ticks_busy fs f _ (State.start_seq hj s) m (by simpa [hj] using hm)

theorem State.perform_xfers (j : Job) (s : State) : (s.perform j).xfers = s.xfers + 3 * j.frames.length := by
  rw [State.perform_eq]

/-- Settles O43: a refused word is the same single tick in both machines; an admitted command is accepted in one tick and
emits its frames in three ticks each. -/
theorem atomicAndTransferLevelAgree : Obligations.AtomicAndTransferLevelAgree := by
  intro s t hs hne h
  rcases step_cases h with ⟨-, hc, -⟩ | ⟨-, w, ws, hc, hw, rfl⟩ | ⟨-, w, ws, i, p, v, hc, hd, hp, hi, rfl⟩ |
    ⟨_, _, hb, -⟩ | ⟨_, _, _, hb, -⟩ | ⟨_, _, _, hb, -⟩ | ⟨_, _, _, hb, -⟩ | ⟨_, _, _, hb, -⟩
  case inl => exact absurd hc hne
  case inr.inl => exact ⟨0, rfl, tick_idle_reserved hs hc hw, fun m h1 h0 => by omega⟩
  case inr.inr.inl =>
    have htick := tick_idle_command hs hc hd hi hp
    refine ⟨3 * (jobOf i s.takeCommand).frames.length, State.perform_xfers _ _, ?_, fun m h1 hm => ?_⟩
    · rw [ticks, htick, ticks_start]
    · obtain ⟨m, rfl⟩ := Nat.exists_eq_add_of_le' h1
      rw [ticks, htick]
      exact ticks_start_busy _ _ hm
  all_goals exact absurd (hs.symm.trans hb) nofun

/-! ### The step and the transfers of a frame (R25, R75) -/

/-- From a frame's start, the step is the three transfers. -/
theorem step_eq_ticks_first {s : State} {f : Frame} {fs : List Frame} {ret : Return}
    (hs : s.seq = .busy (f :: fs) 0 ret) (ha : f.addr.toNat < 22) :
    step s = .next (ticks 3 s) ∧ (ticks 3 s).xfers = s.xfers + 3 := by
  rw [ticks_frame hs]
  refine ⟨?_, by rw [State.runFrame_busy hs]⟩
  rw [step_frame_start hs, exec_instr, frame_eq_next]
  exact ⟨.inr ⟨_, _, hs⟩, (if_pos ha).symm⟩

/-- After a frame's first transfer, the step is the two that remain. -/
theorem step_eq_ticks_second {s : State} {f : Frame} {fs : List Frame} {ret : Return}
    (hs : s.seq = .busy (f :: fs) 1 ret) : step s = .next (ticks 2 s) ∧ (ticks 2 s).xfers = s.xfers + 2 := by
  have hseq : s.transfer.seq = .busy (f :: fs) 2 ret := by rw [State.transfer_second hs]
  have hticks : ticks 2 s = s.transfer.transfer := by rw [ticks, ticks, ticks, tick_busy hs, tick_busy hseq]
  rw [hticks]
  refine ⟨?_, by rw [State.transfer_third hseq, State.transfer_second hs]⟩
  simp only [step, hs, State.transfers]

/-- After a frame's second transfer, the step is the last one. -/
theorem step_eq_ticks_third {s : State} {f : Frame} {fs : List Frame} {ret : Return}
    (hs : s.seq = .busy (f :: fs) 2 ret) : step s = .next (ticks 1 s) ∧ (ticks 1 s).xfers = s.xfers + 1 := by
  have hticks : ticks 1 s = s.transfer := by rw [ticks, ticks, tick_busy hs]
  rw [hticks]
  refine ⟨?_, by rw [State.transfer_third hs]⟩
  simp only [step, hs, State.transfers]

/-- Settles O44: by the frame's transfer the block is at. -/
theorem frameStepIsItsTransfers : Obligations.FrameStepIsItsTransfers := by
  intro s f fs k ret hs ha
  match k with
  | 0 => exact step_eq_ticks_first hs ha
  | 1 => exact step_eq_ticks_second hs
  | 2 => exact step_eq_ticks_third hs

end Sys2Proof.Machine
end

section
/-! The memory family (spec/20_memory.md). What one step or tick makes of the traffic, said once; from it the coherence of the
shadow cache (R49) and the legality of the traffic (R42, R82). Then the growth of the bus record (R44, R83). -/

namespace Sys2Proof.Machine

/-! ### Traffic: what is sent and what is still due -/

/-- Everything the block has put on the wire and, for the command in progress, still has to put there (R25, R81). -/
def State.traffic (s : State) : List Event := (s.bus ++ s.seq.pending).map Event.sent

theorem Event.sent_sent (e : Event) : e.sent.sent = e.sent := by cases e <;> rfl

theorem map_sent_map_sent (es : List Event) : (es.map Event.sent).map Event.sent = es.map Event.sent :=
  List.map_map.trans (List.map_congr_left fun e _ => e.sent_sent)

/-- Coherence looks at the traffic, the cache and the address only. -/
theorem coherent_iff_traffic {s : State} :
    Coherent s ↔ ∀ d : Device, d.PowerOnDefaults → d.AnswersTo s.hw → (d.after s.traffic).regs = s.cache := by
  have hsent (d : Device) : d.after s.traffic = d.after (s.bus ++ s.seq.pending) :=
    d.after_sent (map_sent_map_sent _)
  simp only [coherent_iff, hsent]

/-- Legality looks at the traffic, the sequencer and the address only. -/
theorem legalTraffic_iff_traffic {s : State} :
    LegalTraffic s ↔ s.seq.legal s.hw = true ∧ legalBus s.hw s.traffic = true := by
  rw [LegalTraffic, State.traffic, legalBus_map_sent]

/-- While the block is idle nothing is due (R25). -/
theorem State.traffic_idle {s : State} (h : s.seq = .idle) : s.traffic = s.bus.map Event.sent := by
  rw [State.traffic, h, Seq.pending, List.append_nil]

/-! ### The two ways a step or a tick goes -/

/-- No command is decided: the traffic is as it was, though more of it may be sent and less of it due; so are the address and
the cache, and a legal sequencer state stays legal. -/
structure KeepsTraffic (s t : State) : Prop where
  hw : t.hw = s.hw
  cache : t.cache = s.cache
  traffic : t.traffic = s.traffic
  legal : s.seq.legal s.hw = true → t.seq.legal s.hw = true

/-- An idle block decides the command `i`: its cache is taken over, and its frames are added to the traffic, be they sent at
once or due (R39, D11). -/
structure TakesOn (i : Instr) (s t : State) : Prop where
  idle : s.seq = .idle
  hw : t.hw = s.hw
  cache : t.cache = (jobOf i s).cache
  traffic : t.traffic = s.traffic ++ (eventsOf (jobOf i s).frames fun _ => 0#8).map Event.sent
  legal : t.seq.legal s.hw = true

theorem KeepsTraffic.refl (s : State) : KeepsTraffic s s := ⟨rfl, rfl, rfl, id⟩

theorem KeepsTraffic.trans {a b c : State} (hab : KeepsTraffic a b) (hbc : KeepsTraffic b c) : KeepsTraffic a c where
  hw := hbc.hw.trans hab.hw
  cache := hbc.cache.trans hab.cache
  traffic := hbc.traffic.trans hab.traffic
  legal h := hab.hw ▸ hbc.legal (hab.hw ▸ hab.legal h)

theorem State.takeCommand_keepsTraffic (s : State) : KeepsTraffic s s.takeCommand := ⟨rfl, rfl, rfl, id⟩

theorem State.refuse_keepsTraffic (s : State) (why : RefuseReason) : KeepsTraffic s (s.refuse why) := ⟨rfl, rfl, rfl, id⟩

/-- Completing a command with no frame left drops nothing that is due. -/
theorem State.complete_keepsTraffic {s : State} {k : Fin 3} {ret : Return} (hs : s.seq = .busy [] k ret) (b : Byte) :
    KeepsTraffic s (s.complete ret b) :=
  ⟨rfl, rfl, by rw [State.traffic, State.traffic, hs]; rfl, fun _ => rfl⟩

/-- When a frame is done, the next one is current or the sequencer is idle: legal either way. -/
theorem Seq.legal_next {hw : HwAddr} {f : Frame} {fs : List Frame} {k : Fin 3} {ret : Return}
    (h : (Seq.busy (f :: fs) k ret).legal hw = true) :
    (if fs = [] then Seq.idle else .busy fs 0 ret).legal hw = true := by
  cases fs with
  | nil => rfl
  | cons g fs => exact Seq.legal_tail h

/-- Running the current frame moves it from due to sent. -/
theorem State.runFrame_keepsTraffic {s : State} {f : Frame} {fs : List Frame} {ret : Return}
    (hs : s.seq = .busy (f :: fs) 0 ret) : KeepsTraffic s (s.runFrame f) := by
  obtain ⟨hhw, hcache, -⟩ := s.runFrame_frame f
  refine ⟨hhw, hcache, State.runFrame_sent hs, fun hl => ?_⟩
  rw [State.runFrame_busy hs]
  exact Seq.legal_next (hs ▸ hl)

/-- A transfer keeps the sequencer's state legal: it counts within the frame, or passes to the next one. -/
theorem State.transfer_legal {s : State} (hl : s.seq.legal s.hw = true) : s.transfer.seq.legal s.hw = true := by
  rcases s.transfer_cases with ⟨-, h⟩ | ⟨_, _, -, h⟩ | ⟨_, _, _, hs, h⟩ | ⟨_, _, _, hs, h⟩ | ⟨_, _, _, hs, h⟩ <;> rw [h]
  · exact hl
  · rfl
  all_goals rw [hs] at hl
  · exact hl
  · exact hl
  · exact Seq.legal_next hl

/-- A transfer of a busy block moves one transfer from due to sent. -/
theorem State.transfer_keepsTraffic {s : State} (hb : s.seq ≠ .idle) : KeepsTraffic s s.transfer := by
  obtain ⟨hhw, hcache, -⟩ := s.transfer_frame
  exact ⟨hhw, hcache, State.transfer_sent hb, State.transfer_legal⟩

/-- A frame's last two transfers. -/
theorem State.transfer_transfer_keepsTraffic {s : State} {f : Frame} {fs : List Frame} {ret : Return}
    (hs : s.seq = .busy (f :: fs) 1 ret) : KeepsTraffic s s.transfer.transfer := by
  have hsecond : s.transfer.seq = .busy (f :: fs) 2 ret := by rw [State.transfer_second hs]
  exact (State.transfer_keepsTraffic (hs ▸ nofun)).trans (State.transfer_keepsTraffic (hsecond ▸ nofun))

/-- A job does not depend on the command stream. -/
theorem jobOf_takeCommand (i : Instr) (s : State) : jobOf i s.takeCommand = jobOf i s := jobOf_congr i rfl rfl

/-- The atomic machine has sent the frames of the command it takes on (R14). -/
theorem State.perform_takesOn {s : State} (hs : s.seq = .idle) (i : Instr) :
    TakesOn i s (s.takeCommand.perform (jobOf i s.takeCommand)) := by
  rw [jobOf_takeCommand]
  refine ⟨hs, State.perform_hw _ _, State.perform_cache _ _, ?_, by rw [State.perform_seq]; rfl⟩
  rw [State.traffic, State.perform_sent, State.traffic_idle hs, List.map_append, eventsOf_sent _ _ fun _ => 0#8]
  rfl

/-- An accepted job leaves the sequencer in a legal state. -/
theorem State.start_jobOf_legal (i : Instr) (s u : State) : (u.start (jobOf i s)).seq.legal s.hw = true := by
  match hj : (jobOf i s).frames with
  | [] => simp only [State.start, hj, Seq.legal]
  | f :: fs =>
    rw [State.start_seq hj, ← hj]
    exact (jobOf_legal i s).resolve_left (hj ▸ nofun)

/-- The transfer-level machine has the frames of the command it takes on still to send (R25). -/
theorem State.start_takesOn {s : State} (hs : s.seq = .idle) (i : Instr) :
    TakesOn i s (s.takeCommand.start (jobOf i s.takeCommand)) := by
  rw [jobOf_takeCommand]
  refine ⟨hs, State.start_hw _ _, State.start_cache _ _, ?_, State.start_jobOf_legal i s _⟩
  rw [State.traffic, State.start_sent, State.traffic_idle hs, List.map_append]
  rfl

/-- A step that answers a next state keeps the traffic or takes on a command, whose frames it sends (R14, R25). -/
theorem step_traffic {s t : State} (h : step s = .next t) : KeepsTraffic s t ∨ ∃ i, TakesOn i s t := by
  rcases step_cases h with ⟨-, -, rfl⟩ | ⟨-, _, _, -, -, rfl⟩ | ⟨hs, _, _, i, _, _, -, -, -, -, rfl⟩ | ⟨_, _, hs, rfl⟩ |
    ⟨_, _, _, hs, -, rfl⟩ | ⟨_, _, _, -, -, rfl⟩ | ⟨_, _, _, hs, rfl⟩ | ⟨_, _, _, hs, rfl⟩
  · exact .inl (.refl _)
  · exact .inl (s.takeCommand_keepsTraffic.trans (State.refuse_keepsTraffic _ _))
  · exact .inr ⟨i, State.perform_takesOn hs i⟩
  · exact .inl (State.complete_keepsTraffic hs _)
  · exact .inl (State.runFrame_keepsTraffic hs)
  · exact .inl (State.refuse_keepsTraffic _ _)
  · exact .inl (State.transfer_transfer_keepsTraffic hs)
  · exact .inl (State.transfer_keepsTraffic (hs ▸ nofun))

/-- So does a tick, which leaves the frames of a command it takes on due (R25). -/
theorem tick_traffic (s : State) : KeepsTraffic s (tick s) ∨ ∃ i, TakesOn i s (tick s) := by
  rcases tick_cases s with ⟨-, -, h⟩ | ⟨-, _, _, -, -, h⟩ | ⟨hs, _, _, i, _, _, -, -, -, -, h⟩ | ⟨⟨_, _, _, hs⟩, h⟩ <;>
    rw [h]
  · exact .inl (.refl _)
  · exact .inl (s.takeCommand_keepsTraffic.trans (State.refuse_keepsTraffic _ _))
  · exact .inr ⟨i, State.start_takesOn hs i⟩
  · exact .inl (State.transfer_keepsTraffic (hs ▸ nofun))

/-- An invariant that survives both ways holds after every step and every tick. -/
theorem step_tick_invariant {P : State → Prop} (keeps : ∀ {s t}, KeepsTraffic s t → P s → P t)
    (takesOn : ∀ {i s t}, TakesOn i s t → P s → P t) (s : State) (hs : P s) :
    (∀ t, step s = .next t → P t) ∧ P (tick s) := by
  have key {t : State} (h : KeepsTraffic s t ∨ ∃ i, TakesOn i s t) : P t := by
    rcases h with h | ⟨i, h⟩
    · exact keeps h hs
    · exact takesOn h hs
  exact ⟨fun t h => key (step_traffic h), key (tick_traffic s)⟩

/-! ### Coherence of the shadow cache (R49) -/

theorem KeepsTraffic.coherent {s t : State} (h : KeepsTraffic s t) (hs : Coherent s) : Coherent t := by
  rw [coherent_iff_traffic] at hs ⊢
  rwa [h.traffic, h.cache, h.hw]

/-- The device hears a command's frames after all it heard before, and they make of its registers what the command makes of the
cache (R76, R103). -/
theorem TakesOn.coherent {i : Instr} {s t : State} (h : TakesOn i s t) (hs : Coherent s) : Coherent t := by
  rw [coherent_iff_traffic] at hs ⊢
  intro d hdefaults hanswers
  rw [h.hw] at hanswers
  have haddr : (d.after s.traffic).addr = s.hw := (d.after_addr _).trans hanswers
  obtain ⟨hregs, -⟩ := (d.after s.traffic).after_frames (jobOf i s).frames fun _ => 0#8
  rw [h.traffic, h.cache, Device.after_append, Device.after_sent _ (map_sent_map_sent _), hregs, haddr,
    hs d hdefaults hanswers, jobOf_coherent]

/-- Settles O39: a step that only moves traffic from due to sent changes nothing the device will have heard; one that takes on
a command pairs every cache change with the frame that writes the same byte. -/
theorem everyStepKeepsTheCacheCoherent : Obligations.EveryStepKeepsTheCacheCoherent :=
  step_tick_invariant KeepsTraffic.coherent TakesOn.coherent

/-- Settles O40: nothing has been sent and nothing is due, so the device still holds its defaults, the cache seeds. -/
theorem resetIsCoherent : Obligations.ResetIsCoherent := fun _ => coherent_iff.2 fun _ hdefaults _ => hdefaults

/-! ### Legality of the traffic (R42, R64, R73, R75, R79, R82) -/

theorem KeepsTraffic.legalTraffic {s t : State} (h : KeepsTraffic s t) (hs : LegalTraffic s) : LegalTraffic t := by
  rw [legalTraffic_iff_traffic] at hs ⊢
  obtain ⟨hseq, hbus⟩ := hs
  rw [h.traffic, h.hw]
  exact ⟨h.legal hseq, hbus⟩

/-- A command adds whole legal frames to a legal record. -/
theorem TakesOn.legalTraffic {i : Instr} {s t : State} (h : TakesOn i s t) (hs : LegalTraffic s) : LegalTraffic t := by
  rw [legalTraffic_iff_traffic] at hs ⊢
  obtain ⟨-, hbus⟩ := hs
  rw [h.traffic, h.hw, legalBus_append _ _ hbus, legalBus_map_sent]
  exact ⟨h.legal, legalBus_eventsOf _ _ _ (jobOf_frames_legal i s)⟩

/-- Settles O41: by the two ways a step or a tick goes. -/
theorem everyStepKeepsTheTrafficLegal : Obligations.EveryStepKeepsTheTrafficLegal :=
  step_tick_invariant KeepsTraffic.legalTraffic TakesOn.legalTraffic

/-! ### The bus record (R44, R83) -/

/-- Settles O37: every shared operation leaves the bus record alone or appends to it. -/
theorem busRecordOnlyGrows : Obligations.BusRecordOnlyGrows := by
  refine step_tick_rel (P := fun a b => a.bus <+: b.bus) (refl := fun _ => List.prefix_rfl) (trans := List.IsPrefix.trans)
    (take := fun _ => List.prefix_rfl) (refuse := fun _ _ => List.prefix_rfl) (perform := fun i s => ?_)
    (start := fun i s => ?_) (complete := fun _ _ => List.prefix_rfl) (runFrame := fun f s => ?_)
    (transfer := fun s => ?_)
  · rw [State.perform_bus]
    exact List.prefix_append _ _
  · rw [State.start_bus]
  · obtain ⟨-, -, -, -, hbus⟩ := s.runFrame_frame f
    exact hbus
  · obtain ⟨-, -, -, -, hbus⟩ := s.transfer_frame
    exact hbus

end Sys2Proof.Machine
end

section
/-! The encoding family (spec/30_encoding.md). The command word and its fields, the decoder against the encoder on commands and
on frames, then what a step makes of a reserved word, of a stream without one, and of a word of the opcode table. -/

namespace Sys2Proof.Machine

/-! ### The command word (R57, R61) -/

/-- The fields of a word put together from its fields. -/
theorem fields_append : ∀ (op arg : BitVec 2) (q : BitVec 4),
    opField (op ++ arg ++ q) = op ∧ argField (op ++ arg ++ q) = arg ∧ pinField (op ++ arg ++ q) = q.toNat := by
  decide

theorem opField_commandWord (op arg : BitVec 2) (p : Nat) : opField (commandWord op arg p) = op := by
  obtain ⟨hop, -, -⟩ := fields_append op arg (BitVec.ofNat 4 p)
  exact hop

theorem argField_commandWord (op arg : BitVec 2) (p : Nat) : argField (commandWord op arg p) = arg := by
  obtain ⟨-, harg, -⟩ := fields_append op arg (BitVec.ofNat 4 p)
  exact harg

/-- A pin below 16 is kept whole (R61). -/
theorem pinField_commandWord (op arg : BitVec 2) {p : Nat} (hp : p < 16) : pinField (commandWord op arg p) = p := by
  obtain ⟨-, -, hpin⟩ := fields_append op arg (BitVec.ofNat 4 p)
  rw [commandWord, hpin, BitVec.toNat_ofNat, Nat.mod_eq_of_lt hp]

/-- A word is put together from its fields. -/
theorem commandWord_fields : ∀ w : Byte, commandWord (opField w) (argField w) (pinField w) = w := by
  decide

/-! ### The host commands, encoded and decoded (R58 to R61) -/

theorem format_of_mem_commandsOn {i : Instr} {p : Nat} {v : PinLatchValue} (hi : i ∈ commandsOn p v) :
    i.format = .cmd8 := by
  simp only [commandsOn, List.mem_cons, List.not_mem_nil, or_false] at hi
  rcases hi with rfl | rfl | rfl | rfl | rfl <;> rfl

/-- A command is well formed when its pin is one of the 16 (R87). -/
theorem wellFormed_iff_of_mem_commandsOn {i : Instr} {p : Nat} {v : PinLatchValue} (hi : i ∈ commandsOn p v) :
    WellFormed i ↔ p < 16 := by
  simp only [commandsOn, List.mem_cons, List.not_mem_nil, or_false] at hi
  rcases hi with rfl | rfl | rfl | rfl | rfl <;> exact decide_eq_true_iff

/-- A command on one of the 16 pins is read back from its word: the fields select its row (R58 to R60) and its pin (R61). -/
theorem decode_encode_command {i : Instr} {p : Nat} {v : PinLatchValue} (hi : i ∈ commandsOn p v) (hp : p < 16) :
    decode .cmd8 (encode i) = .ok i := by
  have hpin (op arg : BitVec 2) := pinField_commandWord op arg hp
  simp only [commandsOn, List.mem_cons, List.not_mem_nil, or_false] at hi
  rcases hi with rfl | rfl | rfl | rfl | rfl
  case inr.inr.inr.inl =>
    cases v <;> simp only [encode, valueArg, decode, decodeCommand, opField_commandWord, argField_commandWord, hpin]
  all_goals simp only [encode, decode, decodeCommand, opField_commandWord, argField_commandWord, hpin]

/-- A word that decodes is the encoding of its command: the row it is decoded by fixes its OP and its ARG. -/
theorem encode_of_decodeCommand {w : Byte} {i : Instr} (h : decodeCommand w = .ok i) : encode i = [w] := by
  have hw := commandWord_fields w
  simp only [decodeCommand] at h
  split at h <;> simp only [Decoded.ok.injEq, reduceCtorEq] at h <;> subst h
  all_goals
    next hop harg =>
      rw [hop, harg] at hw
      exact congrArg (fun b => [b]) hw

/-! ### The frames, encoded and decoded (R52 to R54) -/

theorem format_instr (f : Frame) : f.instr.format = .spi24 := by
  obtain ⟨hw, dir, addr, data⟩ := f
  cases dir <;> rfl

/-- A frame is encoded as the three bytes it sends. -/
theorem encode_instr (f : Frame) : encode f.instr = [f.byte 0, f.byte 1, f.byte 2] := by
  obtain ⟨hw, dir, addr, data⟩ := f
  cases dir <;> simp only [Frame.byte, opcode_eq_opcodeWord] <;> rfl

/-- Three bytes that decode are the bytes a frame sends, and its instruction is what they decode to. -/
theorem decodeFrame_ok {b0 b1 b2 : Byte} {i : Instr} (h : decodeFrame b0 b1 b2 = .ok i) :
    ∃ f : Frame, i = f.instr ∧ [b0, b1, b2] = [f.byte 0, f.byte 1, f.byte 2] := by
  by_cases hfix : fixedField b0 = 0b0100#4
  · have hb0 := opcodeWord_fields b0 hfix
    refine ⟨⟨hwField b0, dirField b0, b1, b2⟩, ?_, by simp only [Frame.byte, opcode_eq_opcodeWord, hb0]⟩
    rw [← hb0, decodeFrame_opcodeWord, Decoded.ok.injEq] at h
    rw [← h]
    cases dirField b0 <;> rfl
  · simp [decodeFrame, hfix] at h

/-- Everything the decoder accepts: a command word, or the three bytes of a frame (R51). -/
theorem decode_ok {fmt : Format} {bytes : List Byte} {i : Instr} (h : decode fmt bytes = .ok i) :
    (fmt = .cmd8 ∧ ∃ w, bytes = [w] ∧ decodeCommand w = .ok i) ∨
    (fmt = .spi24 ∧ ∃ f : Frame, i = f.instr ∧ bytes = [f.byte 0, f.byte 1, f.byte 2]) := by
  simp only [decode] at h
  split at h
  · exact .inl ⟨rfl, _, rfl, h⟩
  · exact .inr ⟨rfl, decodeFrame_ok h⟩
  · cases h
  · cases h

/-! ### Decoding and encoding agree -/

/-- Settles O1: a command by the fields of its word, a frame by its three bytes. -/
theorem decodeOfEncodeIsTheInstruction : Obligations.DecodeOfEncodeIsTheInstruction := by
  intro i hwf
  rcases mem_commandsOn_or_frame i with ⟨p, v, hi⟩ | ⟨f, rfl⟩
  · rw [format_of_mem_commandsOn hi]
    exact decode_encode_command hi ((wellFormed_iff_of_mem_commandsOn hi).1 hwf)
  · rw [format_instr, encode_instr, f.decode_bytes]

/-- Settles O2: by what the decoder accepts; the pin field of a word is one of the 16 pins. -/
theorem encodeOfDecodeIsTheBytes : Obligations.EncodeOfDecodeIsTheBytes := by
  refine ⟨fun fmt bytes i h => ?_, fun w i h => ?_⟩
  · rcases decode_ok h with ⟨rfl, w, rfl, hd⟩ | ⟨rfl, f, rfl, rfl⟩
    · obtain ⟨p, -, v, hi⟩ := decodeCommand_ok hd
      exact ⟨format_of_mem_commandsOn hi, encode_of_decodeCommand hd⟩
    · exact ⟨format_instr f, encode_instr f⟩
  · obtain ⟨p, hp, v, hi⟩ := decodeCommand_ok h
    exact (wellFormed_iff_of_mem_commandsOn hi).2 hp

/-- Settles O3: the decoder run on each word. -/
theorem decodedWordsMatchTheTables : Obligations.DecodedWordsMatchTheTables := by
  unfold Obligations.DecodedWordsMatchTheTables
  decide

/-! ### Reserved and valid command words (R63, R106, R109) -/

/-- A word outside the ranges of R63 decodes. -/
theorem reservedWord_eq_false_iff (w : Byte) : reservedWord w = false ↔ ∃ i, decodeCommand w = .ok i := by
  rw [← Bool.not_eq_true, ← decodeCommand_rejected_iff]
  match hd : decodeCommand w with
  | .ok i => simp
  | .rejected e => simp [decodeCommand_rejected hd]

/-- R63's ranges hold 160 of the 256 words. -/
theorem reservedWord_count : ((List.range 256).filter fun n => reservedWord (BitVec.ofNat 8 n)).length = 160 := by rfl

theorem step_idle_reserved {s : State} {w : Byte} {ws : List Byte} (hs : s.seq = .idle) (hc : s.cmds = w :: ws)
    (hw : reservedWord w = true) : step s = .next (s.takeCommand.refuse .reservedCommandWord) := by
  simp only [step, hs, hc, (decodeCommand_rejected_iff w).2 hw]

/-- Settles O4: the decoder's rejection is R63's ranges, and a refusal leaves every field but the response and the mark. -/
theorem reservedCommandWordsAreRefused : Obligations.ReservedCommandWordsAreRefused := by
  refine ⟨fun w => (decodeCommand_rejected_iff w).symm, reservedWord_eq_false_iff, reservedWord_count, ?_⟩
  intro s w ws hs hc hw
  refine ⟨_, step_idle_reserved hs hc hw, rfl, rfl, rfl, rfl, rfl, rfl, rfl, rfl, ?_⟩
  rw [State.refuse_cmds, State.takeCommand_cmds, hc, List.tail_cons]

theorem step_idle_waits {s : State} (hs : s.seq = .idle) (hc : s.cmds = []) : step s = .next s := by
  simp only [step, hs, hc]

/-- A step of the idle block on a stream of valid words takes the next word, if there is one, goes idle again and leaves the
mark alone (R14, R106). -/
theorem step_idle_valid {s : State} (hs : s.seq = .idle) (hv : ∀ w ∈ s.cmds, reservedWord w = false) :
    ∃ t, step s = .next t ∧ t.seq = .idle ∧ t.refusal = s.refusal ∧ t.cmds = s.cmds.tail := by
  match hc : s.cmds with
  | [] => exact ⟨s, step_idle_waits hs hc, hs, rfl, hc⟩
  | w :: ws =>
    obtain ⟨i, hd⟩ := (reservedWord_eq_false_iff w).1 (hv w (hc ▸ List.mem_cons_self))
    obtain ⟨p, hp, v, hi⟩ := decodeCommand_ok hd
    refine ⟨_, (step_idle_command hs hc hd).trans ((exec_command_eq_next hi hp).2 ⟨hs, rfl⟩),
      State.perform_seq _ _, State.perform_refusal _ _, ?_⟩
    rw [State.perform_cmds, State.takeCommand_cmds, hc, List.tail_cons]

/-- An invariant that holds of clean states only, and that every step answers with a next state of its own, makes every run
safe. -/
theorem safeRun_of_invariant {P : State → Prop} (clean : ∀ {s}, P s → Clean s)
    (keeps : ∀ {s}, P s → ∃ t, step s = .next t ∧ P t) (n : Nat) {s : State} (hs : P s) : SafeRun n s := by
  induction n generalizing s with
  | zero => exact clean hs
  | succ n ih =>
    obtain ⟨t, hstep, ht⟩ := keeps hs
    exact ⟨clean hs, t, hstep, ih ht⟩

/-- The block is idle, its run unmarked, and the host's stream holds no reserved word. -/
structure AwaitsValidWords (s : State) : Prop where
  idle : s.seq = .idle
  clean : Clean s
  valid : ∀ w ∈ s.cmds, reservedWord w = false

theorem AwaitsValidWords.exists_step {s : State} (h : AwaitsValidWords s) : ∃ t, step s = .next t ∧ AwaitsValidWords t := by
  obtain ⟨t, hstep, hidle, hmark, hcmds⟩ := step_idle_valid h.idle h.valid
  exact ⟨t, hstep, hidle, hmark.trans h.clean, fun w hw => h.valid w (List.mem_of_mem_tail (hcmds ▸ hw))⟩

/-- Settles O36: between commands the block always awaits valid words. -/
theorem validStreamsRunSafely : Obligations.ValidStreamsRunSafely := fun n _ hs hclean hvalid =>
  safeRun_of_invariant AwaitsValidWords.clean AwaitsValidWords.exists_step n ⟨hs, hclean, hvalid⟩

/-! ### A word of the opcode table, placed for fetching (R55, R57) -/

theorem instr?_eq_some {d : Decoded} {i : Instr} : d.instr? = some i ↔ d = .ok i := by
  cases d <;> simp [Decoded.instr?]

/-- A table word decodes when its bytes do. -/
theorem decodeTableWord_eq_some {nbits w : Nat} {i : Instr} (h : decodeTableWord nbits w = some i) :
    ∃ fmt bytes, tableBytes nbits w = some (fmt, bytes) ∧ decode fmt bytes = .ok i := by
  simp only [decodeTableWord] at h
  split at h
  · next fmt bytes hbytes => exact ⟨fmt, bytes, hbytes, instr?_eq_some.1 h⟩
  · cases h

theorem State.withFetchWord_command {nbits w : Nat} {b : Byte} (h : tableBytes nbits w = some (.cmd8, [b])) (s : State) :
    s.withFetchWord nbits w = { s with seq := .idle, cmds := b :: s.cmds } := by
  simp only [State.withFetchWord, h]

theorem State.withFetchWord_frame {nbits w : Nat} {f : Frame}
    (h : tableBytes nbits w = some (.spi24, [f.byte 0, f.byte 1, f.byte 2])) (s : State) :
    s.withFetchWord nbits w = { s with seq := .busy [f] 0 (placedReturn f.dir) } := by
  simp only [State.withFetchWord, h, f.decode_bytes, Decoded.instr?, Option.bind_some, frameOf_instr]

/-- Settles O8: a command word is taken off the stream it was placed on, a frame is run as the sequencer's current one. -/
theorem stepRunsTheFetchWord : Obligations.StepRunsTheFetchWord := by
  intro s nbits w i h
  obtain ⟨fmt, bytes, hbytes, hd⟩ := decodeTableWord_eq_some h
  rcases decode_ok hd with ⟨rfl, b, rfl, hcommand⟩ | ⟨rfl, f, rfl, rfl⟩
  · rw [State.withFetchWord_command hbytes]
    exact ⟨_, step_idle_command rfl rfl hcommand, rfl, rfl, rfl, rfl, rfl, rfl, rfl, rfl, rfl⟩
  · rw [State.withFetchWord_frame hbytes]
    exact ⟨_, step_frame_start rfl, rfl, rfl, rfl, rfl, rfl, rfl, rfl, rfl, rfl⟩

end Sys2Proof.Machine
end

section
/-! The cache family (spec/40_register_cache.md). A frame to a register address that is none of the 22 (R70). -/

namespace Sys2Proof.Machine

/-- With the chip-select released, a frame to an address outside the cache is a bare refusal (R70, R108). -/
theorem frame_out_of_range {f : Frame} {s : State} (hf : 22 ≤ f.addr.toNat)
    (hs : s.seq = .idle ∨ ∃ fs ret, s.seq = .busy fs 0 ret) :
    frame f s = .next (s.refuse .registerOutOfRange) :=
  frame_eq_next.2 ⟨hs, (if_neg (Nat.not_lt.2 hf)).symm⟩

/-- Settles O16: either instruction is its frame, and the frame is refused before a byte is sent. -/
theorem frameRegisterOutOfRangeIsRefused : Obligations.FrameRegisterOutOfRangeIsRefused := by
  rintro s a r d i hr (rfl | rfl) hs
  · exact (exec_instr ⟨a, .write, r, d⟩ s).trans (frame_out_of_range hr hs)
  · exact (exec_instr ⟨a, .read, r, d⟩ s).trans (frame_out_of_range hr hs)

end Sys2Proof.Machine
end

section
/-! The protocol-encoder family (spec/41_protocol_encoder.md). The opcode byte's fields, a register transaction run as the
sequencer's current frame, and that what the block sends does not depend on what it receives. -/

namespace Sys2Proof.Machine

/-! ### The opcode byte (R72, R74) -/

theorem tbit_eq (t : Transaction) : tbit t = if t = .read then 1#8 else 0#8 := by
  cases t <;> rfl

/-- Bit 0 of an opcode byte alone decides its direction (R52). -/
theorem dirField_eq_read_iff (b : Byte) : dirField b = .read ↔ b.getLsbD 0 = true := by
  rw [dirField]
  cases b.getLsbD 0 <;> simp

/-- Settles O13: by its fields, which the encoding table's opcode byte has in place. -/
theorem opcodeByteHasItsFields : Obligations.OpcodeByteHasItsFields := by
  refine ⟨fun hw t => ⟨by rw [opcode, tbit_eq], ?_⟩, rfl, rfl⟩
  rw [opcode_eq_opcodeWord, ← dirField_eq_read_iff, dirField_opcodeWord]
  exact ⟨fixedField_opcodeWord hw t, hwField_opcodeWord hw t, Iff.rfl⟩

/-! ### A register transaction as the current frame (R25, R73, R75) -/

theorem State.sendFrame_seq (f : Frame) (s : State) : (s.sendFrame f).seq = s.seq := by
  rw [State.sendFrame_eq]

/-- Outside a command a frame is sent and nothing completes (log entry 16). -/
theorem State.runFrame_idle {s : State} (hs : s.seq = .idle) (f : Frame) : s.runFrame f = s.sendFrame f := by
  simp only [State.runFrame, State.dropFrame, State.sendFrame_seq, hs]

/-- The last frame of a command completes it, with what its third byte makes of the return (R25, R78). -/
theorem State.runFrame_last {s : State} {g : Frame} {k : Fin 3} {ret : Return} (hs : s.seq = .busy [g] k ret) (f : Frame) :
    s.runFrame f = (s.sendFrame f).complete ret (s.answer 2) := by
  simp only [State.runFrame, State.dropFrame, State.sendFrame_seq, hs, State.rx2]

/-- A frame before the last makes the next one current (R25). -/
theorem State.runFrame_more {s : State} {g h : Frame} {fs : List Frame} {k : Fin 3} {ret : Return}
    (hs : s.seq = .busy (g :: h :: fs) k ret) (f : Frame) :
    s.runFrame f = { s.sendFrame f with seq := .busy (h :: fs) 0 ret } := by
  simp only [State.runFrame, State.dropFrame, State.sendFrame_seq, hs]

/-- With the chip-select released, a frame to one of the 22 registers runs (R69, R131). -/
theorem frame_in_range {f : Frame} {s : State} (hf : f.addr.toNat < 22)
    (hs : s.seq = .idle ∨ ∃ fs ret, s.seq = .busy fs 0 ret) : frame f s = .next (s.runFrame f) :=
  frame_eq_next.2 ⟨hs, (if_pos hf).symm⟩

/-- What the instruction of a frame answers, by where the sequencer stands: the bracket is sent, then nothing completes, the
command completes, or the next frame is current. -/
theorem exec_instr_in_range {f : Frame} (hf : f.addr.toNat < 22) (s : State) :
    (s.seq = .idle → exec f.instr s = .next (s.sendFrame f)) ∧
    (∀ g ret, s.seq = .busy [g] 0 ret → exec f.instr s = .next ((s.sendFrame f).complete ret (s.answer 2))) ∧
    (∀ g h fs ret, s.seq = .busy (g :: h :: fs) 0 ret →
      exec f.instr s = .next { s.sendFrame f with seq := .busy (h :: fs) 0 ret }) := by
  rw [exec_instr]
  refine ⟨fun hs => ?_, fun g ret hs => ?_, fun g h fs ret hs => ?_⟩
  · rw [frame_in_range hf (.inl hs), State.runFrame_idle hs]
  · rw [frame_in_range hf (.inr ⟨_, _, hs⟩), State.runFrame_last hs]
  · rw [frame_in_range hf (.inr ⟨_, _, hs⟩), State.runFrame_more hs]

/-- Settles O14: the write frame's instruction; a command without a value completes with none, whatever was received. -/
theorem spiWriteSendsItsFrame : Obligations.SpiWriteSendsItsFrame := by
  intro s a r d hr u hu
  obtain rfl : u = s.sendFrame ⟨a, .write, r, d⟩ := by rw [State.sendFrame_eq]; exact hu
  obtain ⟨hidle, hlast, hmore⟩ := exec_instr_in_range (f := ⟨a, .write, r, d⟩) hr s
  exact ⟨hidle, fun f => hlast f .void, hmore⟩

/-- A sampled return is HIGH exactly when the masked bit of the byte is set (R94). -/
theorem Return.respond_sampled (b mask : Byte) :
    (Return.sampled mask).respond b = .value (if b &&& mask = 0#8 then .low else .high) := by
  simp only [Return.respond, levelOf, ne_eq, ite_not]

/-- Settles O15: the read frame's instruction; the response is made from the third answer. -/
theorem spiReadReturnsTheThirdByte : Obligations.SpiReadReturnsTheThirdByte := by
  intro s a r f hr u hu
  obtain rfl : u = s.sendFrame ⟨a, .read, r, f⟩ := by rw [State.sendFrame_eq]; exact hu
  obtain ⟨hidle, hlast, hmore⟩ := exec_instr_in_range (f := ⟨a, .read, r, f⟩) hr s
  exact ⟨hidle, hlast, Return.respond_sampled _, hmore⟩

/-! ### What is sent does not depend on what is received (R80, R81) -/

/-- Two states agree on everything the block acts on: its address, cache and sequencer, and the host's stream. The
transport's answers, the record and what has been returned are left free. -/
structure State.Agrees (s s' : State) : Prop where
  hw : s'.hw = s.hw
  cache : s'.cache = s.cache
  seq : s'.seq = s.seq
  cmds : s'.cmds = s.cmds

/-- From `s` to `t` and from `s'` to `t'` the events added are the same but for the received bytes, and the states reached
agree. -/
structure SendsAlike (s t s' t' : State) : Prop where
  agrees : t.Agrees t'
  sent : ∃ es es', t.bus = s.bus ++ es ∧ t'.bus = s'.bus ++ es' ∧ es.map Event.sent = es'.map Event.sent

theorem SendsAlike.trans {s t u s' t' u' : State} (hst : SendsAlike s t s' t') (htu : SendsAlike t u t' u') :
    SendsAlike s u s' u' := by
  obtain ⟨es, es', ht, ht', hes⟩ := hst.sent
  obtain ⟨fs, fs', hu, hu', hfs⟩ := htu.sent
  refine ⟨htu.agrees, es ++ fs, es' ++ fs', ?_, ?_, ?_⟩
  · rw [hu, ht, List.append_assoc]
  · rw [hu', ht', List.append_assoc]
  · rw [List.map_append, List.map_append, hes, hfs]

/-- Where nothing is sent, agreement is all that matters. -/
theorem State.Agrees.sendsAlike_of_bus_eq {s t s' t' : State} (ht : t.Agrees t') (hbus : t.bus = s.bus)
    (hbus' : t'.bus = s'.bus) : SendsAlike s t s' t' :=
  ⟨ht, [], [], by rw [hbus, List.append_nil], by rw [hbus', List.append_nil], rfl⟩

section Operations
variable {s s' : State} (h : s.Agrees s')
include h

theorem State.Agrees.takeCommand : s.takeCommand.Agrees s'.takeCommand :=
  ⟨h.hw, h.cache, h.seq, congrArg List.tail h.cmds⟩

theorem State.Agrees.refuse (why : RefuseReason) : (s.refuse why).Agrees (s'.refuse why) := ⟨h.hw, h.cache, h.seq, h.cmds⟩

/-- The response may differ, but it is returned to the host only. -/
theorem State.Agrees.complete (ret : Return) (b b' : Byte) : (s.complete ret b).Agrees (s'.complete ret b') :=
  ⟨h.hw, h.cache, rfl, h.cmds⟩

/-- Agreeing states decide the same job, so they send the same frames (R81, R103). -/
theorem State.Agrees.perform (i : Instr) :
    SendsAlike s (s.perform (jobOf i s)) s' (s'.perform (jobOf i s')) := by
  rw [jobOf_congr i h.hw h.cache]
  refine ⟨⟨?_, ?_, ?_, ?_⟩, _, _, State.perform_bus _ _, State.perform_bus _ _, eventsOf_sent _ _ _⟩
  · rw [State.perform_hw, State.perform_hw, h.hw]
  · rw [State.perform_cache, State.perform_cache]
  · rw [State.perform_seq, State.perform_seq]
  · rw [State.perform_cmds, State.perform_cmds, h.cmds]

theorem State.Agrees.runFrame {f : Frame} {fs : List Frame} {k : Fin 3} {ret : Return}
    (hs : s.seq = .busy (f :: fs) k ret) : SendsAlike s (s.runFrame f) s' (s'.runFrame f) := by
  rw [State.runFrame_busy hs, State.runFrame_busy (h.seq.trans hs)]
  exact ⟨⟨h.hw, h.cache, rfl, h.cmds⟩, _, _, rfl, rfl, rfl⟩

theorem State.Agrees.transfer_second {f : Frame} {fs : List Frame} {ret : Return} (hs : s.seq = .busy (f :: fs) 1 ret) :
    SendsAlike s s.transfer s' s'.transfer := by
  rw [State.transfer_second hs, State.transfer_second (h.seq.trans hs)]
  exact ⟨⟨h.hw, h.cache, rfl, h.cmds⟩, _, _, rfl, rfl, rfl⟩

theorem State.Agrees.transfer_third {f : Frame} {fs : List Frame} {ret : Return} (hs : s.seq = .busy (f :: fs) 2 ret) :
    SendsAlike s s.transfer s' s'.transfer := by
  rw [State.transfer_third hs, State.transfer_third (h.seq.trans hs)]
  exact ⟨⟨h.hw, h.cache, rfl, h.cmds⟩, _, _, rfl, rfl, rfl⟩

/-- A frame's last two transfers. -/
theorem State.Agrees.transfer_transfer {f : Frame} {fs : List Frame} {ret : Return} (hs : s.seq = .busy (f :: fs) 1 ret) :
    SendsAlike s s.transfer.transfer s' s'.transfer.transfer := by
  have hfirst := h.transfer_second hs
  have hseq : s.transfer.seq = .busy (f :: fs) 2 ret := by rw [State.transfer_second hs]
  exact hfirst.trans (hfirst.agrees.transfer_third hseq)

end Operations

/-! What a step answers where it is not a host command: the rest of the step's cases, from the state to the answer. -/

theorem step_busy_nil {s : State} {k : Fin 3} {ret : Return} (hs : s.seq = .busy [] k ret) :
    step s = .next (s.complete ret 0#8) := by
  simp only [step, State.transfer, hs]

theorem step_busy_second {s : State} {f : Frame} {fs : List Frame} {ret : Return} (hs : s.seq = .busy (f :: fs) 1 ret) :
    step s = .next s.transfer.transfer := by
  simp only [step, State.transfers, hs]

theorem step_busy_third {s : State} {f : Frame} {fs : List Frame} {ret : Return} (hs : s.seq = .busy (f :: fs) 2 ret) :
    step s = .next s.transfer := by
  simp only [step, State.transfers, hs]

/-- Which case a step is of depends only on what agreeing states agree on, and in each case they send alike. -/
theorem State.Agrees.step {s s' t : State} (h : s.Agrees s') (hstep : step s = .next t) :
    ∃ t', step s' = .next t' ∧ SendsAlike s t s' t' := by
  rcases step_cases hstep with ⟨hs, hc, rfl⟩ | ⟨hs, w, ws, hc, hw, rfl⟩ | ⟨hs, w, ws, i, p, v, hc, hd, hp, hi, rfl⟩ |
    ⟨k, ret, hs, rfl⟩ | ⟨f, fs, ret, hs, hf, rfl⟩ | ⟨f, fs, ret, hs, hf, rfl⟩ | ⟨f, fs, ret, hs, rfl⟩ |
    ⟨f, fs, ret, hs, rfl⟩ <;> have hs' := h.seq.trans hs
  · exact ⟨s', step_idle_waits hs' (h.cmds.trans hc), h.sendsAlike_of_bus_eq rfl rfl⟩
  · exact ⟨_, step_idle_reserved hs' (h.cmds.trans hc) hw, (h.takeCommand.refuse _).sendsAlike_of_bus_eq rfl rfl⟩
  · have htake : SendsAlike s s.takeCommand s' s'.takeCommand := h.takeCommand.sendsAlike_of_bus_eq rfl rfl
    refine ⟨_, ?_, htake.trans (h.takeCommand.perform i)⟩
    rw [step_idle_command hs' (h.cmds.trans hc) hd, exec_command_eq_next hi hp]
    exact ⟨hs', rfl⟩
  · exact ⟨_, step_busy_nil hs', (h.complete _ _ _).sendsAlike_of_bus_eq rfl rfl⟩
  · refine ⟨_, ?_, h.runFrame hs⟩
    rw [step_frame_start hs', exec_instr, frame_in_range hf (.inr ⟨_, _, hs'⟩)]
  · refine ⟨_, ?_, (h.refuse _).sendsAlike_of_bus_eq rfl rfl⟩
    rw [step_frame_start hs', exec_instr, frame_out_of_range hf (.inr ⟨_, _, hs'⟩)]
  · exact ⟨_, step_busy_second hs', h.transfer_transfer hs⟩
  · exact ⟨_, step_busy_third hs', h.transfer_third hs⟩

/-- Settles O38: agreeing states step alike. -/
theorem sentBytesIgnoreReceivedBytes : Obligations.SentBytesIgnoreReceivedBytes := by
  intro s s' t hhw hcache hseq hcmds hstep
  have h : s.Agrees s' := ⟨hhw, hcache, hseq, hcmds⟩
  obtain ⟨t', hstep', ht, hsent⟩ := h.step hstep
  exact ⟨t', hstep', ht.hw, ht.cache, ht.seq, ht.cmds, hsent⟩

end Sys2Proof.Machine
end

section
/-! The pin-controller family (spec/42_pin_controller.md). Routing, the words of the five commands, then each command by its
job (what the dirty-check sends and what the cache ends with), and the rules of R97 to R101 read off the jobs. -/

namespace Sys2Proof.Machine

/-! ### Routing (R84 to R86) -/

theorem port_eq_A_iff (p : Nat) : port p = .A ↔ p / 8 = 0 := by
  by_cases h : p / 8 = 0 <;> simp [port, h]

theorem port_eq_B_iff {p : Nat} (hp : p < 16) : port p = .B ↔ p / 8 = 1 := by
  have hA := port_eq_A_iff p
  cases hport : port p <;> simp only [hport, true_iff, reduceCtorEq, false_iff] at hA ⊢ <;> omega

theorem bitMask_toNat (p : Nat) : (bitMask p).toNat = 2 ^ bit p := by
  have hlt : 2 ^ bit p < 2 ^ 8 := Nat.pow_lt_pow_right (by decide) (bit_lt p)
  rw [bitMask, BitVec.toNat_shiftLeft, BitVec.toNat_ofNat, Nat.shiftLeft_eq, Nat.one_mod_two_pow (by decide), Nat.one_mul,
    Nat.mod_eq_of_lt hlt]

/-- Settles O11: the port by the quotient, the mask by its one bit, the registers by the port. -/
theorem pinRouting : Obligations.PinRouting := by
  intro p hp
  refine ⟨port_eq_A_iff p, port_eq_B_iff hp, rfl, bitMask_toNat p, fun b _ => ?_, fun hlow => ?_, fun hhigh => ?_⟩
  · rw [getLsbD_bitMask, decide_eq_true_iff]
  · rw [(port_eq_A_iff p).2 (by omega)]
    exact ⟨rfl, rfl, rfl⟩
  · rw [(port_eq_B_iff hp).2 (by omega)]
    exact ⟨rfl, rfl, rfl⟩

/-! ### The words of the commands (R57, R61) -/

/-- A pin below 16 fills the low nibble of its word, under the fields of its row. -/
theorem commandWord_eq_or (op arg : BitVec 2) {p : Nat} (hp : p < 16) :
    commandWord op arg p = (op ++ arg ++ 0#4) ||| BitVec.ofNat 8 p := by
  have key : ∀ (op arg : BitVec 2), ∀ p < 16, commandWord op arg p = (op ++ arg ++ 0#4) ||| BitVec.ofNat 8 p := by
    decide
  exact key op arg p hp

/-- The word of a command is its row's fixed bits with the pin below them. -/
theorem decodeCommand_row {i : Instr} {p : Nat} {v : PinLatchValue} (hi : i ∈ commandsOn p v) (hp : p < 16)
    {op arg : BitVec 2} (hrow : encode i = [commandWord op arg p]) {fixed : Byte} (hfixed : op ++ arg ++ 0#4 = fixed) :
    decodeCommand (fixed ||| BitVec.ofNat 8 p) = .ok i := by
  have h := decode_encode_command hi hp
  rwa [hrow, commandWord_eq_or op arg hp, hfixed] at h

/-- A pin of 16 or more has no word (R87). -/
theorem decodeCommand_pin_lt {w : Byte} {i : Instr} {p : Nat} {v : PinLatchValue} (hi : i ∈ commandsOn p v)
    (hd : decodeCommand w = .ok i) : p < 16 := by
  obtain ⟨q, hq, u, hiq⟩ := decodeCommand_ok hd
  exact (wellFormed_iff_of_mem_commandsOn hi).1 ((wellFormed_iff_of_mem_commandsOn hiq).2 hq)

/-! ### A command performed -/

theorem mem_commandsOn_of_mem_writingCommandsOn {i : Instr} {p : Nat} {v : PinLatchValue}
    (hi : i ∈ writingCommandsOn p v) : i ∈ commandsOn p v := by
  simp only [writingCommandsOn, commandsOn, List.mem_cons, List.not_mem_nil, or_false] at hi ⊢
  tauto

/-- The idle block performs a command on one of the 16 pins (R14). -/
theorem exec_command_idle {i : Instr} {p : Nat} {v : PinLatchValue} (hi : i ∈ commandsOn p v) (hp : p < 16) {s : State}
    (hs : s.seq = .idle) : exec i s = .next (s.perform (jobOf i s)) :=
  (exec_command_eq_next hi hp).2 ⟨hs, rfl⟩

theorem dwrite_mem_commandsOn (p : Nat) (v : PinLatchValue) : Instr.dwrite p v ∈ commandsOn p v := by simp [commandsOn]

theorem dread_mem_commandsOn (p : Nat) (v : PinLatchValue) : Instr.dread p ∈ commandsOn p v := by simp [commandsOn]

section Idle
variable {s : State} {p : Nat} (hs : s.seq = .idle) (hp : p < 16)
include hs hp

theorem exec_pinmodeOutput_idle : exec (.pinmodeOutput p) s = .next (s.perform (pinmodeOutputJob p s)) :=
  exec_command_idle (pinModeInstr_mem_commandsOn p .output) hp hs

theorem exec_dwrite_idle (v : PinLatchValue) : exec (.dwrite p v) s = .next (s.perform (dwriteJob p v s)) :=
  exec_command_idle (dwrite_mem_commandsOn p v) hp hs

theorem exec_dread_idle : exec (.dread p) s = .next (s.perform (dreadJob p s)) :=
  exec_command_idle (dread_mem_commandsOn p .low) hp hs

end Idle

theorem State.isOutput_eq_true_iff (s : State) (p : Nat) : s.isOutput p = true ↔ s.isInput p = false := by
  rw [State.isOutput, Bool.not_eq_true']

theorem State.perform_rx (j : Job) (s : State) : (s.perform j).rx = s.rx.drop (3 * j.frames.length) := by
  rw [State.perform_eq]

theorem State.perform_response (j : Job) (s : State) :
    (s.perform j).response = some (j.ret.respond (j.lastByte s)) := by
  rw [State.perform_eq]

/-- A job that returns nothing completes with no value, whatever was received (R8). -/
theorem State.perform_response_void {j : Job} (h : j.ret = .void) (s : State) : (s.perform j).response = some .done := by
  rw [State.perform_response, h]
  rfl

theorem State.perform_bus_of_frames_nil {j : Job} (h : j.frames = []) (s : State) : (s.perform j).bus = s.bus := by
  rw [State.perform_bus, h, eventsOf_nil, List.append_nil]

theorem State.perform_newJob_bus (s : State) : (s.perform s.newJob).bus = s.bus := State.perform_bus_of_frames_nil rfl s

theorem State.perform_newJob_cache (s : State) : (s.perform s.newJob).cache = s.cache := State.perform_cache _ s

/-- The later frames' events follow, answered from where the earlier frames' transfers end. -/
theorem eventsOf_append (fs gs : List Frame) (ans : Nat → Byte) :
    eventsOf (fs ++ gs) ans = eventsOf fs ans ++ eventsOf gs (fun k => ans (k + 3 * fs.length)) := by
  induction fs generalizing ans with
  | nil => rfl
  | cons f fs ih =>
    simp only [List.cons_append, eventsOf_cons, ih, List.append_assoc, List.length_cons, Nat.mul_add, Nat.add_assoc]

/-! ### The dirty-check (R96) -/

/-- The write every command makes under the dirty-check: cache and frame when the byte differs, nothing otherwise. -/
def State.writeIfDirty (r : ControlRegister) (v : Byte) (s : State) : Job :=
  if s.dirty r v then s.newJob.write s.hw r v else s.newJob

section WriteIfDirty
variable (r : ControlRegister) (v : Byte) (s : State)

/-- The dirty-check saves a frame, never a cache update: the byte it does not write is the one the entry holds. -/
@[simp] theorem State.writeIfDirty_cache : (s.writeIfDirty r v).cache = cacheSet s.cache r v := by
  by_cases h : v = s.get r
  · rw [h, State.get, cacheSet_cacheGet]
    simp [State.writeIfDirty, State.dirty, State.get]
  · simp [State.writeIfDirty, State.dirty, h]

@[simp] theorem State.writeIfDirty_frames :
    (s.writeIfDirty r v).frames = if s.dirty r v then [writeFrame s.hw (addressOf r) v] else [] := by
  rw [State.writeIfDirty]
  split <;> rfl

@[simp] theorem State.writeIfDirty_ret : (s.writeIfDirty r v).ret = .void := by
  rw [State.writeIfDirty]
  split <;> rfl

theorem State.writeIfDirty_get (q : ControlRegister) :
    cacheGet (s.writeIfDirty r v).cache q = if q = r then v else s.get q := by
  rw [State.writeIfDirty_cache, cacheGet_cacheSet, State.get]

end WriteIfDirty

/-! ### pinMode OUTPUT (R89) -/

theorem pinmodeOutputJob_eq_writeIfDirty (p : Nat) (s : State) :
    pinmodeOutputJob p s = s.writeIfDirty (iodir (port p)) (s.get (iodir (port p)) &&& ~~~bitMask p) := rfl

/-- The direction frame is sent exactly when the pin was an input (R89). -/
theorem pinmodeOutputJob_frames (p : Nat) (s : State) :
    (pinmodeOutputJob p s).frames = if s.isInput p then
      [writeFrame s.hw (addressOf (iodir (port p))) (s.get (iodir (port p)) &&& ~~~bitMask p)] else [] := by
  rw [pinmodeOutputJob_eq_writeIfDirty, State.writeIfDirty_frames, State.dirty_clear, ← State.isInput_eq]

theorem pinmodeOutputJob_get (p : Nat) (s : State) (q : ControlRegister) :
    cacheGet (pinmodeOutputJob p s).cache q =
      if q = iodir (port p) then s.get (iodir (port p)) &&& ~~~bitMask p else s.get q := by
  rw [pinmodeOutputJob_eq_writeIfDirty, State.writeIfDirty_get]

/-- Settles O18: by the command's job, whose one write goes to the direction register. -/
theorem pinModeOutputClearsTheDirectionBit : Obligations.PinModeOutputClearsTheDirectionBit := by
  rintro s p hs hp _ _ rfl rfl
  have hi := pinModeInstr_mem_commandsOn p .output
  refine ⟨decodeCommand_row hi hp rfl rfl, _, exec_pinmodeOutput_idle hs hp, ?_, fun r hr => ?_, State.perform_hw _ _,
    State.perform_seq _ _, State.perform_response_void (State.writeIfDirty_ret _ _ _) _, ?_⟩
  · rw [State.perform_get, pinmodeOutputJob_get, if_pos rfl]
  · rw [State.perform_get, pinmodeOutputJob_get, if_neg hr]
  · rw [State.perform_bus, pinmodeOutputJob_frames]

/-! ### pinMode INPUT and INPUT_PULLUP (R90 to R92) -/

/-- Both input modes, with the pull-up byte left open: the direction write under the dirty-check, then the pull-up write
without one. -/
def inputModeJob (p : Nat) (pu : Byte) (s : State) : Job :=
  (s.writeIfDirty (iodir (port p)) (s.get (iodir (port p)) ||| bitMask p)).write s.hw (gppu (port p)) pu

theorem pinmodeInputJob_eq_inputModeJob (p : Nat) (s : State) :
    pinmodeInputJob p s = inputModeJob p (s.get (gppu (port p)) &&& ~~~bitMask p) s := rfl

theorem pinmodeInputPullupJob_eq_inputModeJob (p : Nat) (s : State) :
    pinmodeInputPullupJob p s = inputModeJob p (s.get (gppu (port p)) ||| bitMask p) s := rfl

/-- Direction frame first, and only for an output pin; pull-up frame second, and always (R92). -/
theorem inputModeJob_frames (p : Nat) (pu : Byte) (s : State) :
    (inputModeJob p pu s).frames =
      (if s.isInput p then []
        else [writeFrame s.hw (addressOf (iodir (port p))) (s.get (iodir (port p)) ||| bitMask p)]) ++
      [writeFrame s.hw (addressOf (gppu (port p))) pu] := by
  rw [inputModeJob, Job.write_frames, State.writeIfDirty_frames, State.dirty_set, ← State.isInput_eq]
  cases s.isInput p <;> rfl

theorem inputModeJob_get (p : Nat) (pu : Byte) (s : State) (q : ControlRegister) :
    cacheGet (inputModeJob p pu s).cache q =
      if q = gppu (port p) then pu else if q = iodir (port p) then s.get (iodir (port p)) ||| bitMask p else s.get q := by
  rw [inputModeJob, Job.write_cache, cacheGet_cacheSet, State.writeIfDirty_get]

theorem inputModeJob_ret (p : Nat) (pu : Byte) (s : State) : (inputModeJob p pu s).ret = .void := by
  rw [inputModeJob, Job.write_ret, State.writeIfDirty_ret]

/-- Everything an input mode does, for any pull-up byte (R90, R91). -/
theorem State.perform_inputModeJob (p : Nat) (pu : Byte) (s : State) {t : State}
    (ht : t = s.perform (inputModeJob p pu s)) :
    t.get (iodir (port p)) = s.get (iodir (port p)) ||| bitMask p ∧ t.get (gppu (port p)) = pu ∧
      (∀ r, r ≠ iodir (port p) → r ≠ gppu (port p) → t.get r = s.get r) ∧ t.hw = s.hw ∧ t.seq = .idle ∧
      t.response = some .done ∧
      t.bus = s.bus ++ eventsOf ((if s.isInput p then []
          else [writeFrame s.hw (addressOf (iodir (port p))) (s.get (iodir (port p)) ||| bitMask p)]) ++
        [writeFrame s.hw (addressOf (gppu (port p))) pu]) s.answer := by
  subst ht
  have hget := inputModeJob_get p pu s
  refine ⟨?_, ?_, fun r hdir hpull => ?_, State.perform_hw _ _, State.perform_seq _ _,
    State.perform_response_void (inputModeJob_ret p pu s) _, ?_⟩
  · rw [State.perform_get, hget, if_neg (iodir_ne_gppu _ _), if_pos rfl]
  · rw [State.perform_get, hget, if_pos rfl]
  · rw [State.perform_get, hget, if_neg hpull, if_neg hdir]
  · rw [State.perform_bus, inputModeJob_frames]

/-- Settles O19: the input-mode job with the pull-up bit cleared. -/
theorem pinModeInputClearsThePullUp : Obligations.PinModeInputClearsThePullUp := by
  rintro s p hs hp _ _ _ _ rfl rfl rfl rfl
  have hi := pinModeInstr_mem_commandsOn p .input
  refine ⟨?_, _, exec_command_idle hi hp hs, State.perform_inputModeJob p _ s rfl⟩
  rw [← BitVec.zero_or (x := BitVec.ofNat 8 p)]
  exact decodeCommand_row hi hp rfl rfl

/-- Settles O20: the input-mode job with the pull-up bit set. -/
theorem pinModeInputPullupSetsThePullUp : Obligations.PinModeInputPullupSetsThePullUp := by
  rintro s p hs hp _ _ _ _ rfl rfl rfl rfl
  have hi := pinModeInstr_mem_commandsOn p .inputPullup
  exact ⟨decodeCommand_row hi hp rfl rfl, _, exec_command_idle hi hp hs, State.perform_inputModeJob p _ s rfl⟩

/-! ### digitalWrite (R93) -/

theorem latchCandidate_eq (v : PinLatchValue) (m lat : Byte) :
    latchCandidate v m lat = if v = .high then lat ||| m else lat &&& ~~~m := by
  cases v <;> rfl

/-- The candidate latch byte has the pin's bit at the value. -/
theorem pinBit_latchCandidate (v : PinLatchValue) (p : Nat) (lat : Byte) :
    pinBit (latchCandidate v (bitMask p) lat) p = decide (v = .high) := by
  cases v
  · simp [latchCandidate, pinBit_and_not]
  · simp [latchCandidate, pinBit_or]

/-- The guard: an input pin's write is discarded (R93, R100). -/
theorem dwriteJob_of_isInput {p : Nat} {s : State} (h : s.isInput p = true) (v : PinLatchValue) :
    dwriteJob p v s = s.newJob := if_pos h

/-- Past the guard: the latch write under the dirty-check (R93). -/
theorem dwriteJob_of_not_isInput {p : Nat} {s : State} (h : s.isInput p = false) (v : PinLatchValue) :
    dwriteJob p v s = s.writeIfDirty (gpio (port p)) (latchCandidate v (bitMask p) (s.get (gpio (port p)))) :=
  if_neg (Bool.eq_false_iff.1 h)

theorem dwriteJob_frames (p : Nat) (v : PinLatchValue) (s : State) :
    (dwriteJob p v s).frames =
      if s.isInput p = false ∧ pinBit (s.get (gpio (port p))) p ≠ decide (v = .high) then
        [writeFrame s.hw (addressOf (gpio (port p))) (latchCandidate v (bitMask p) (s.get (gpio (port p))))]
      else [] := by
  rw [dwriteJob_eq]
  split <;> rfl

theorem dwriteJob_ret (p : Nat) (v : PinLatchValue) (s : State) : (dwriteJob p v s).ret = .void := by
  rw [dwriteJob_eq]
  split <;> rfl

theorem dwriteJob_get (p : Nat) (v : PinLatchValue) (s : State) (q : ControlRegister) :
    cacheGet (dwriteJob p v s).cache q =
      if q = gpio (port p) ∧ s.isInput p = false then latchCandidate v (bitMask p) (s.get (gpio (port p)))
      else s.get q := by
  cases h : s.isInput p with
  | true => rw [dwriteJob_of_isInput h, if_neg (by simp)]; rfl
  | false => rw [dwriteJob_of_not_isInput h, State.writeIfDirty_get]; simp only [and_true]

/-- Settles O21: by the guard and the dirty-check of the command's job. -/
theorem digitalWriteSetsTheLatchBit : Obligations.DigitalWriteSetsTheLatchBit := by
  rintro s p v hs hp _ _ rfl rfl
  rw [← latchCandidate_eq]
  refine ⟨?_, _, exec_dwrite_idle hs hp v, ?_, fun r hr => ?_, State.perform_hw _ _, State.perform_seq _ _,
    State.perform_response_void (dwriteJob_ret p v s) _, ?_⟩
  · cases v <;> exact decodeCommand_row (dwrite_mem_commandsOn p _) hp rfl rfl
  · rw [State.perform_get, dwriteJob_get]
    cases s.isInput p <;> simp
  · rw [State.perform_get, dwriteJob_get, if_neg fun h => hr h.1]
  · rw [State.perform_bus, dwriteJob_frames]

/-! ### digitalRead (R94) -/

theorem dreadJob_of_isInput {p : Nat} {s : State} (h : s.isInput p = true) :
    dreadJob p s = s.newJob.read s.hw (gpio (port p)) (bitMask p) := by
  rw [dreadJob_eq, if_pos h]

theorem dreadJob_of_not_isInput {p : Nat} {s : State} (h : s.isInput p = false) :
    dreadJob p s = { s.newJob with ret := .level .low } := by
  rw [dreadJob_eq, if_neg (Bool.eq_false_iff.1 h)]

theorem dreadJob_cache (p : Nat) (s : State) : (dreadJob p s).cache = s.cache := by
  rw [dreadJob_eq]
  split <;> rfl

theorem dreadJob_frames (p : Nat) (s : State) :
    (dreadJob p s).frames = if s.isInput p then [readFrame s.hw (addressOf (gpio (port p)))] else [] := by
  rw [dreadJob_eq]
  split <;> rfl

/-- HIGH exactly for an input pin whose bit of the third received byte is set (R94). -/
theorem State.perform_dread_response (p : Nat) (s : State) :
    (s.perform (dreadJob p s)).response =
      some (.value (if s.isInput p ∧ pinBit (s.answer 2) p = true then .high else .low)) := by
  rw [State.perform_response]
  cases h : s.isInput p with
  | true =>
    rw [dreadJob_of_isInput h]
    simp [Return.respond, Job.lastByte, levelOf_bitMask]
  | false =>
    rw [dreadJob_of_not_isInput h]
    simp [Return.respond]

/-- Three exchanges for an input pin, none for an output pin (R101). -/
theorem State.perform_dread_xfers (p : Nat) (s : State) :
    (s.perform (dreadJob p s)).xfers = s.xfers + if s.isInput p then 3 else 0 := by
  rw [State.perform_xfers, dreadJob_frames]
  split <;> rfl

/-- Settles O22: by the guard of the command's job; a read frame's events, its flush byte the address, are written out. -/
theorem digitalReadReturnsThePinsBit : Obligations.DigitalReadReturnsThePinsBit := by
  intro s p hs hp
  refine ⟨decodeCommand_row (dread_mem_commandsOn p .low) hp rfl rfl, _, exec_dread_idle hs hp, ?_,
    State.perform_hw _ _, State.perform_seq _ _, State.perform_dread_response p s, ?_⟩
  · rw [State.perform_cache, dreadJob_cache]
  · rw [State.perform_bus, dreadJob_frames]
    cases s.isInput p <;> rfl

/-! ### The frame of the five commands (R97, R102) -/

/-- At most two frames a command (R92, R102). -/
theorem jobOf_frames_length_le {i : Instr} {p : Nat} {v : PinLatchValue} (hi : i ∈ commandsOn p v) (s : State) :
    (jobOf i s).frames.length ≤ 2 := by
  simp only [commandsOn, List.mem_cons, List.not_mem_nil, or_false] at hi
  rcases hi with rfl | rfl | rfl | rfl | rfl
  · rw [jobOf, pinmodeInputJob_eq_inputModeJob, inputModeJob_frames]; split <;> simp
  · rw [jobOf, pinmodeOutputJob_frames]; split <;> simp
  · rw [jobOf, pinmodeInputPullupJob_eq_inputModeJob, inputModeJob_frames]; split <;> simp
  · rw [jobOf, dwriteJob_frames]; split <;> simp
  · rw [jobOf, dreadJob_frames]; split <;> simp

/-- Only digitalWrite touches the latch register (R93). -/
theorem jobOf_gpio {i : Instr} {p : Nat} {v : PinLatchValue} (hi : i ∈ commandsOn p v) (hne : i ≠ .dwrite p v)
    (s : State) : cacheGet (jobOf i s).cache (gpio (port p)) = s.get (gpio (port p)) := by
  have hdir := (iodir_ne_gpio (port p) (port p)).symm
  have hpull := (gppu_ne_gpio (port p) (port p)).symm
  simp only [commandsOn, List.mem_cons, List.not_mem_nil, or_false] at hi
  rcases hi with rfl | rfl | rfl | rfl | rfl
  · rw [jobOf, pinmodeInputJob_eq_inputModeJob, inputModeJob_get, if_neg hpull, if_neg hdir]
  · rw [jobOf, pinmodeOutputJob_get, if_neg hdir]
  · rw [jobOf, pinmodeInputPullupJob_eq_inputModeJob, inputModeJob_get, if_neg hpull, if_neg hdir]
  · exact absurd rfl hne
  · rw [jobOf, dreadJob_cache, State.get]

/-- digitalWrite touches the latch register only (R93). -/
theorem dwriteJob_other {p : Nat} {r : ControlRegister} (hr : r ≠ gpio (port p)) (v : PinLatchValue) (s : State) :
    cacheGet (dwriteJob p v s).cache r = s.get r := by
  rw [dwriteJob_get, if_neg fun h => hr h.1]

/-- Settles O23: a command is its job performed; the job's frames are counted, and the registers it writes are those of the
pin's port. -/
theorem commandsLeaveTheRestAlone : Obligations.CommandsLeaveTheRestAlone := by
  intro s t p v hp i hi h
  obtain ⟨-, rfl⟩ := (exec_command_eq_next hi hp).1 h
  simp only [State.perform_get]
  refine ⟨State.perform_hw _ _, State.perform_refusal _ _, State.perform_cmds _ _, State.perform_seq _ _,
    ⟨_, jobOf_frames_length_le hi s, State.perform_rx _ _, State.perform_xfers _ _, ?_⟩,
    fun r hdir hpull hlatch => jobOf_other_registers hi s hdir hpull hlatch, ?_, fun hne => jobOf_gpio hi hne s⟩
  · rw [State.perform_bus, List.length_append, eventsOf_length]
  · rintro rfl
    exact ⟨dwriteJob_other (iodir_ne_gpio _ _) v s, dwriteJob_other (gppu_ne_gpio _ _) v s⟩

/-! ### The pin's range (R87) -/

/-- Settles O24: the refusal comes before the job, and a word's pin field holds one of the 16 pins. -/
theorem pinOutOfRangeIsRefused : Obligations.PinOutOfRangeIsRefused := by
  refine ⟨fun s p v hs hp i hi => ?_, fun w p v hp i hi hd => ?_⟩
  · refine ⟨s.refuse .pinOutOfRange, ?_, rfl, rfl, rfl, rfl, rfl, rfl, rfl, rfl, rfl⟩
    rw [exec_command hi, command_idle hs, if_neg (Nat.not_lt.2 hp)]
  · exact absurd (decodeCommand_pin_lt hi hd) (Nat.not_lt.2 hp)

/-! ### The common algorithm (R88) -/

/-- Setting an entry to the byte it holds decides nothing. -/
theorem Job.set_cacheGet (j : Job) (r : ControlRegister) : j.set r (cacheGet j.cache r) = j := by
  rw [Job.set, cacheSet_cacheGet]

/-- In OUTPUT mode the common algorithm's pull-up update writes the byte back that is there; the input modes are the
algorithm's own text. -/
theorem pinModeJob_eq_jobOf (p : Nat) (mode : PinMode) (s : State) :
    pinModeJob p mode s = jobOf (pinModeInstr p mode) s := by
  cases mode with
  | output =>
    have hpull : s.get (gppu (port p)) = cacheGet (pinmodeOutputJob p s).cache (gppu (port p)) := by
      rw [pinmodeOutputJob_get, if_neg (iodir_ne_gppu _ _).symm]
    change (pinmodeOutputJob p s).set _ (s.get (gppu (port p))) = pinmodeOutputJob p s
    rw [hpull, Job.set_cacheGet]
  | input => rfl
  | inputPullup => rfl

/-- Settles O26: the jobs agree, so the commands do, on every state. -/
theorem pinModeIsTheCommonAlgorithm : Obligations.PinModeIsTheCommonAlgorithm := by
  intro s p mode
  rw [exec_command (pinModeInstr_mem_commandsOn p mode), pinModeJob_eq_jobOf]

/-! ### Other pins (R97) -/

/-- Settles O27: bit by bit within the pin's port, register by register outside it. -/
theorem otherPinsKeepTheirBits : Obligations.OtherPinsKeepTheirBits := by
  intro s t p v hp i hw h
  have hi := mem_commandsOn_of_mem_writingCommandsOn hw
  obtain ⟨-, rfl⟩ := (exec_command_eq_next hi hp).1 h
  have hport (r : ControlRegister) (hr : portOf r ≠ port p) : (s.perform (jobOf i s)).get r = s.get r := by
    obtain ⟨hdir, hpull, hlatch⟩ := ne_of_portOf_ne hr
    rw [State.perform_get, jobOf_other_registers hi s hdir hpull hlatch]
  refine ⟨fun r b _ hb => ?_, hport, fun q _ hq => ⟨hport _ ?_, hport _ ?_, hport _ ?_⟩⟩
  · rw [State.perform_get, jobOf_other_bits hi s r hb]
  · rwa [portOf_iodir]
  · rwa [portOf_gppu]
  · rwa [portOf_gpio]

/-! ### Repeated commands (R98) -/

/-- For an output pin, pinMode OUTPUT decides nothing (R89, R98). -/
theorem pinmodeOutputJob_of_not_isInput {p : Nat} {s : State} (h : s.isInput p = false) :
    pinmodeOutputJob p s = s.newJob := by
  rw [pinmodeOutputJob_eq, if_neg (Bool.eq_false_iff.1 h)]

/-- A latch bit that is at the value already decides nothing (R93, R98). -/
theorem dwriteJob_of_pinBit {p : Nat} {v : PinLatchValue} {s : State}
    (h : pinBit (s.get (gpio (port p))) p = decide (v = .high)) : dwriteJob p v s = s.newJob := by
  rw [dwriteJob_eq, if_neg fun hne => hne.2 h]

/-- A second pinMode OUTPUT finds the direction bit clear. -/
theorem pinmodeOutputJob_again {s t : State} {p : Nat} (ht : t = s.perform (pinmodeOutputJob p s)) :
    pinmodeOutputJob p t = t.newJob := by
  apply pinmodeOutputJob_of_not_isInput
  rw [State.isInput_eq, ht, State.perform_get, pinmodeOutputJob_get, if_pos rfl, pinBit_and_not]
  simp

/-- A second digitalWrite on an output pin finds the latch bit at the value. -/
theorem dwriteJob_again {s t : State} {p : Nat} {v : PinLatchValue} (hin : s.isInput p = false)
    (ht : t = s.perform (dwriteJob p v s)) : dwriteJob p v t = t.newJob := by
  apply dwriteJob_of_pinBit
  rw [ht, State.perform_get, dwriteJob_get, if_pos ⟨rfl, hin⟩, pinBit_latchCandidate]

/-- Settles O28: after the first command the second's job is empty. -/
theorem repeatedCommandsSendNothing : Obligations.RepeatedCommandsSendNothing := by
  intro s p hs hp
  refine ⟨?_, fun v hout => ?_⟩
  · refine ⟨_, _, exec_pinmodeOutput_idle hs hp, exec_pinmodeOutput_idle (State.perform_seq _ _) hp, ?_, ?_,
      fun hin => ?_, fun hin => ?_⟩
    · rw [pinmodeOutputJob_again rfl, State.perform_newJob_bus]
    · rw [pinmodeOutputJob_again rfl, State.perform_newJob_cache]
    · exact ⟨_, by rw [State.perform_bus, pinmodeOutputJob_frames, if_pos hin]⟩
    · rw [pinmodeOutputJob_of_not_isInput hin, State.perform_newJob_bus]
  · have hin := (s.isOutput_eq_true_iff p).1 hout
    refine ⟨_, _, exec_dwrite_idle hs hp v, exec_dwrite_idle (State.perform_seq _ _) hp v, ?_, ?_⟩
    · rw [dwriteJob_again hin rfl, State.perform_newJob_bus]
    · rw [dwriteJob_again hin rfl, State.perform_newJob_cache]

/-! ### The unconditional pull-up frame (R99) -/

/-- Settles O29: both input modes' frames end with the pull-up write, which carries the byte the cache ends with. -/
theorem pullUpFrameIsUnconditional : Obligations.PullUpFrameIsUnconditional := by
  intro s p hs hp i hmode
  have hi : i ∈ commandsOn p .low := by rcases hmode with rfl | rfl <;> simp [commandsOn]
  obtain ⟨pu, hjob⟩ : ∃ pu, jobOf i s = inputModeJob p pu s := by rcases hmode with rfl | rfl <;> exact ⟨_, rfl⟩
  obtain ⟨-, hpull, -, -, -, -, hbus⟩ := State.perform_inputModeJob p pu s rfl
  obtain ⟨ans, hlast⟩ : ∃ ans, eventsOf [writeFrame s.hw (addressOf (gppu (port p)))
      ((s.perform (inputModeJob p pu s)).get (gppu (port p)))] ans <:+ (s.perform (inputModeJob p pu s)).bus := by
    rw [hpull, hbus, eventsOf_append]
    exact ⟨_, (List.suffix_append _ _).trans (List.suffix_append _ _)⟩
  refine ⟨_, _, _, _, hjob ▸ exec_command_idle hi hp hs, hlast, ?_⟩
  rw [hbus, List.length_append, eventsOf_length, List.length_append, List.length_singleton]
  omega

/-! ### Mode-gated guards (R100) -/

/-- Settles O30: behind its guard either command decides nothing but its response. -/
theorem modeGatedGuards : Obligations.ModeGatedGuards := by
  intro s p v hs hp
  refine ⟨fun hin => ?_, fun hout => ?_⟩
  · refine ⟨_, exec_dwrite_idle hs hp v, ?_, ?_⟩ <;> rw [dwriteJob_of_isInput hin]
    · exact s.perform_newJob_bus
    · exact s.perform_newJob_cache
  · have hin := (s.isOutput_eq_true_iff p).1 hout
    refine ⟨_, exec_dread_idle hs hp, ?_, ?_⟩
    · rw [dreadJob_of_not_isInput hin, State.perform_bus_of_frames_nil rfl]
    · rw [State.perform_dread_response, hin]
      rfl

/-! ### The third received byte (R101) -/

/-- Settles O31: by the response and the number of exchanges of a digitalRead, said once for both kinds of pin. -/
theorem readDependsOnTheThirdByteOnly : Obligations.ReadDependsOnTheThirdByteOnly := by
  refine ⟨fun s s' p hs hs' hp hin hin' hbit => ?_, fun s p hs hp hin hbyte => ?_, fun s p hs hp hout => ?_⟩
  · refine ⟨_, _, exec_dread_idle hs hp, exec_dread_idle hs' hp, ?_, ?_, ?_⟩
    · rw [State.perform_dread_response, State.perform_dread_response, hin, hin', hbit]
    · rw [State.perform_dread_xfers, hin, if_pos rfl]
    · rw [State.perform_dread_xfers, hin', if_pos rfl]
  · refine ⟨fun hb => ⟨_, exec_dread_idle hs hp, ?_⟩, fun hb => ⟨_, exec_dread_idle hs hp, ?_⟩⟩ <;>
      rw [State.perform_dread_response, hin, hbyte, pinBit, hb] <;> rfl
  · have hin := (s.isOutput_eq_true_iff p).1 hout
    refine ⟨_, exec_dread_idle hs hp, ?_, ?_⟩
    · rw [State.perform_dread_xfers, hin]
      rfl
    · rw [dreadJob_of_not_isInput hin, State.perform_bus_of_frames_nil rfl]

end Sys2Proof.Machine
end

section
/-! The exceptions family (spec/60_exceptions.md). Every step is answered by a next state (R104, R106), and the refusal mark, once
set, is never changed (R109). -/

namespace Sys2Proof.Machine

/-! ### Completion (R106, R107) -/

/-- The idle block is idle again after a step: it waits, refuses a reserved word, or performs the command whole (R14, R106,
R109). -/
theorem exists_step_of_idle {s : State} (hs : s.seq = .idle) : ∃ t, step s = .next t ∧ t.seq = .idle := by
  match hc : s.cmds with
  | [] => exact ⟨s, step_idle_waits hs hc, hs⟩
  | w :: ws =>
    match hw : reservedWord w with
    | true => exact ⟨_, step_idle_reserved hs hc hw, hs⟩
    | false =>
      obtain ⟨i, hd⟩ := (reservedWord_eq_false_iff w).1 hw
      obtain ⟨p, hp, v, hi⟩ := decodeCommand_ok hd
      exact ⟨_, (step_idle_command hs hc hd).trans (exec_command_idle hi hp hs), State.perform_seq _ _⟩

/-- A busy block goes on wherever it is in its current frame: at the frame's start the chip-select is released, as the frame
needs (R131), and later the transfers that remain are made (R107). -/
theorem exists_step_of_busy {s : State} {fs : List Frame} {k : Fin 3} {ret : Return} (hs : s.seq = .busy fs k ret) :
    ∃ t, step s = .next t := by
  match fs, k with
  | [], _ => exact ⟨_, step_busy_nil hs⟩
  | f :: fs, 0 =>
    have hframe := (frame_eq_next (f := f)).2 ⟨.inr ⟨f :: fs, ret, hs⟩, rfl⟩
    exact ⟨_, (step_frame_start hs).trans ((exec_instr f s).trans hframe)⟩
  | f :: fs, 1 => exact ⟨_, step_busy_second hs⟩
  | f :: fs, 2 => exact ⟨_, step_busy_third hs⟩

/-- No state stops the block: `step` never reaches the two refusals of R130 to R132 (R104). -/
theorem exists_step (s : State) : ∃ t, step s = .next t := by
  match hs : s.seq with
  | .idle =>
    obtain ⟨t, hstep, -⟩ := exists_step_of_idle hs
    exact ⟨t, hstep⟩
  | .busy _ _ _ => exact exists_step_of_busy hs

/-- Settles O10: by the word offered to the idle block; that a next state follows needs no legality of what is due. -/
theorem everyStepCompletes : Obligations.EveryStepCompletes :=
  ⟨fun _ => exists_step_of_idle, fun s _ => exists_step s⟩

/-! ### The refusal mark (R109) -/

/-- A further refusal keeps the mark's first reason (log entry 6). -/
theorem State.refuse_refusal_of_marked {s : State} {first : RefuseReason} (h : s.refusal = some first)
    (why : RefuseReason) : (s.refuse why).refusal = some first := by
  rw [State.refuse_refusal, h, Option.getD_some]

theorem State.runFrame_refusal (f : Frame) (s : State) : (s.runFrame f).refusal = s.refusal := by
  obtain ⟨-, -, hmark, -⟩ := s.runFrame_frame f
  exact hmark

theorem State.transfer_refusal (s : State) : s.transfer.refusal = s.refusal := by
  obtain ⟨-, -, hmark, -⟩ := s.transfer_frame
  exact hmark

/-- Settles O25: only a refusal writes the mark, and it keeps the one that is there. -/
theorem refusalMarkStays : Obligations.RefusalMarkStays := by
  intro s first hs
  obtain ⟨hstep, htick⟩ := step_tick_rel (P := fun a b => a.refusal = some first → b.refusal = some first)
    (refl := fun _ => id) (trans := fun hab hbc => hbc ∘ hab) (take := fun _ => id)
    (refuse := fun _ why h => State.refuse_refusal_of_marked h why)
    (perform := fun _ s => (State.perform_refusal _ s).trans) (start := fun _ s => (State.start_refusal _ s).trans)
    (complete := fun _ _ => id) (runFrame := fun f s => (s.runFrame_refusal f).trans)
    (transfer := fun s => s.transfer_refusal.trans) s
  exact ⟨fun t h => hstep t h hs, htick hs⟩

end Sys2Proof.Machine
end

section
/-! The reset and hazards family (spec/70_reset_and_hazards.md). What construction leaves, where the block waits, where the host
has no move (R130 to R132), and the pull-up bit of an output pin (R133). -/

namespace Sys2Proof.Machine

/-! ### The pull-up bit of an output pin (R133) -/

/-- pinMode OUTPUT leaves the pull-up byte of the pin's port as it was (R89). -/
theorem State.perform_pinmodeOutput_gppu (p : Nat) (s : State) :
    (s.perform (pinmodeOutputJob p s)).get (gppu (port p)) = s.get (gppu (port p)) := by
  rw [State.perform_get, pinmodeOutputJob_get, if_neg (iodir_ne_gppu _ _).symm]

/-- On an idle block pinMode to an input mode completes, idle again, and the pin's pull-up bit says which of the two modes it
was (R90, R91). -/
theorem exists_exec_input_mode {s : State} (hs : s.seq = .idle) {p : Nat} (hp : p < 16) {mode : PinMode}
    (hmode : mode ≠ .output) :
    ∃ t, exec (pinModeInstr p mode) s = .next t ∧ t.seq = .idle ∧
      pinBit (t.get (gppu (port p))) p = decide (mode = .inputPullup) := by
  refine ⟨_, exec_command_idle (pinModeInstr_mem_commandsOn p mode) hp hs, State.perform_seq _ _, ?_⟩
  rw [State.perform_get, pinModeInstr_pullup_bit p hmode]

/-- Settles O33: OUTPUT keeps the pull-up bit INPUT_PULLUP has set, and the next input mode decides it afresh. -/
theorem pullUpIsRetainedOnOutput : Obligations.PullUpIsRetainedOnOutput := by
  intro s p hs hp
  obtain ⟨t, hexec, ht, hpull⟩ := exists_exec_input_mode hs hp (mode := .inputPullup) (by decide)
  have hidle : (t.perform (pinmodeOutputJob p t)).seq = .idle := State.perform_seq _ _
  obtain ⟨x, hinput, -, hclear⟩ := exists_exec_input_mode hidle hp (mode := .input) (by decide)
  obtain ⟨y, hpullup, -, hset⟩ := exists_exec_input_mode hidle hp (mode := .inputPullup) (by decide)
  refine ⟨t, _, hexec, exec_pinmodeOutput_idle ht hp, State.modeOf_perform_pinMode p .output t, ?_, ⟨x, hinput, hclear⟩,
    ⟨y, hpullup, hset⟩⟩
  rw [State.perform_pinmodeOutput_gppu, hpull, decide_eq_true rfl]

/-! ### Reset (R120 to R122) -/

/-- The seeds of R120, register by register. -/
theorem State.resetWith_get (hw : HwAddr) (r : ControlRegister) :
    (State.resetWith hw).get r = if r = .iodira ∨ r = .iodirb then 0xFF#8 else 0x00#8 := by
  cases r <;> rfl

/-- Settles O5: by the table of the seeds, in which the address does not occur. -/
theorem resetSeedsTheCache : Obligations.ResetSeedsTheCache := by
  refine fun hw => ⟨State.resetWith_get hw _, State.resetWith_get hw _, fun r hdira hdirb => ?_⟩
  rw [State.resetWith_get, if_neg (not_or.2 ⟨hdira, hdirb⟩)]

/-- Traffic that has not begun is legal: nothing has been sent and nothing is due. -/
theorem legalTraffic_of_silent {s : State} (hs : s.seq = .idle) (hbus : s.bus = []) : LegalTraffic s := by
  rw [LegalTraffic, hs, hbus]
  exact ⟨rfl, rfl⟩

/-- Settles O42: after reset the block is idle and its bus record is empty. -/
theorem resetTrafficIsLegal : Obligations.ResetTrafficIsLegal := by
  intro hw
  obtain ⟨-, hseq, -, -, hbus, -⟩ := resetIsIdleAndSilent.1 hw _ rfl
  exact ⟨legalTraffic_of_silent hseq hbus, hbus, congrArg Seq.pending hseq⟩

/-! ### Waiting (R118, R123) -/

theorem tick_idle_waits {s : State} (hs : s.seq = .idle) (hc : s.cmds = []) : tick s = s := by
  simp only [tick, hs, hc]

/-- Settles O9: neither machine finds a word to take. -/
theorem idleBlockWaitsForACommand : Obligations.IdleBlockWaitsForACommand :=
  fun _ hs hc => ⟨step_idle_waits hs hc, tick_idle_waits hs hc⟩

/-! ### Where the host has no move (R130 to R132) -/

section Busy
variable {s : State} {fs : List Frame} {k : Fin 3} {ret : Return} (hs : s.seq = .busy fs k ret)
include hs

/-- A busy block refuses a command, whatever it is about to do (R130, R132). -/
theorem command_busy (p : Nat) (j : Job) : command p j s = .refused .commandInProgress := by
  simp only [command, hs]

/-- Past its current frame's first transfer the bracket is open, and no other frame fits into it (R131). -/
theorem frame_open_bracket (hk : k ≠ 0) (f : Frame) : frame f s = .refused .frameInProgress := by
  match k with
  | 0 => exact absurd rfl hk
  | 1 => simp only [frame, hs]
  | 2 => simp only [frame, hs]

end Busy

/-- Settles O17: the five commands share one guard, and the two frames another. -/
theorem overlappingCommandsHaveNoMove : Obligations.OverlappingCommandsHaveNoMove := by
  refine ⟨fun s fs k ret p v hs i hi => ?_, fun s fs k ret a r d hs hk => ⟨?_, ?_⟩⟩
  · rw [exec_command hi, command_busy hs]
  · exact (exec_instr ⟨a, .write, r, d⟩ s).trans (frame_open_bracket hs hk _)
  · exact (exec_instr ⟨a, .read, r, d⟩ s).trans (frame_open_bracket hs hk _)

end Sys2Proof.Machine
end
